-- ==== Sys2Proof/Word.lean ====
section
/-! DEFINITION. The bit-vector types of the block: bytes, the 16- and 32-bit field values, and the
64-bit command and response words. Every value is unsigned (00_scope.md R7). -/

namespace Sys2Proof

/-- A byte is 8 bits (00_scope.md R8). -/
abbrev Byte := BitVec 8

/-- A 16-bit value: ACKN, WIN, HCSUM, the `b` field of a command. -/
abbrev Half := BitVec 16

/-- A 32-bit value: SEQ, MCSUM, the `imm` field of a command, the `val` field of a response. -/
abbrev Word := BitVec 32

/-- A 64-bit command or response word (30_encoding.md R44, R47). -/
abbrev Word64 := BitVec 64

end Sys2Proof
end

