-- ==== Sys2Proof/Config.lean ====
section
/-! DEFINITION. The fixed constants of the block (00_scope.md R4), its one open parameter `MsgSum`
(00_scope.md R5) and the free values that stand for what the spec leaves unspecified. -/

namespace Sys2Proof.Config

/-- `HDR_LEN`: bytes of an encoded Header (00_scope.md R4). -/
abbrev hdrLen : Nat := 12

/-- `HDR_COVER`: leading header bytes the header checksum covers (00_scope.md R4). -/
abbrev hdrCover : Nat := 10

/-- `MCK_OFF`: offset of `message_checksum` in a Message (00_scope.md R4). -/
abbrev mckOff : Nat := 12

/-- `MCK_LEN`: bytes of `message_checksum` (00_scope.md R4). -/
abbrev mckLen : Nat := 4

/-- `PAY_OFF`: offset of the payload region in a Message (00_scope.md R4). -/
abbrev payOff : Nat := 16

/-- `PAY_LEN`: bytes of the payload region, and of PBUF (00_scope.md R4, 10_state.md R18). -/
abbrev payLen : Nat := 1000

/-- `MSG_LEN`: bytes of an encoded Message, and of WBUF (00_scope.md R4, 10_state.md R19). -/
abbrev msgLen : Nat := 1016

/-- `DLEN_MAX`: largest `data_length` (00_scope.md R4). -/
abbrev dlenMax : Nat := 255

/-- Which function the open parameter `MsgSum` is (00_scope.md R5, 43_message_codec.md R87, R88).
DESIGN CHOICE, log entry 4: the argument "a model takes" is this plain datum, held in State. -/
inductive MsgSumChoice where
  /-- the spec's default instance, CRC-32/ISO-HDLC (43_message_codec.md R88) -/
  | crc32
  /-- some other function of the block's implementer, of which nothing is known but that it is a
  total function; `n` tells two of them apart -/
  | unnamed (n : Nat)
deriving DecidableEq, Repr

/-- Free value: the message-checksum functions other than the default. No body: a claim holds for
every one of them (93_implementation_defined.md U1; log entry 4). -/
opaque unnamedMsgSum : Nat → List Byte → Word

/-- Free value: the byte of PBUF at an address as the last reset left it (10_state.md R24;
93_implementation_defined.md U8; log entry 3). The first argument names that reset's contents. -/
opaque resetPbuf : Nat → Nat → Byte

/-- Free value: the byte of WBUF at an address as the last reset left it (10_state.md R24;
93_implementation_defined.md U8; log entry 3). The first argument names that reset's contents. -/
opaque resetWbuf : Nat → Nat → Byte

end Sys2Proof.Config
end

