-- ==== Sys2Proof/Syntax.lean ====
section
/-! DEFINITION. The 13 commands as syntax: one constructor of `Instr` per row of
spec/opcode_table.json, its operands as the names of 30_encoding.md R49. -/

namespace Sys2Proof

/-- The eight registers, `x[0]` to `x[7]` in this order (10_state.md R10): RDREG's operand. -/
inductive Reg where
  | seq | ackn | win | flags | dlen | hcsum | mcsum | status
deriving DecidableEq, Repr

/-- The six Header registers, `x[0]` to `x[5]` in this order (10_state.md R10): WRREG's operand.
MCSUM and STATUS are read-only and are no operand of it (10_state.md R15, R16). -/
inductive HdrReg where
  | seq | ackn | win | flags | dlen | hcsum
deriving DecidableEq, Repr

/-- The two buffer spaces (20_memory.md R25). -/
inductive Space where
  | pbuf | wbuf
deriving DecidableEq, Repr

/-- The four named flags (42_flags.md R80). -/
inductive Flag where
  | syn | ack | fin | name
deriving DecidableEq, Repr

/-- The 13 commands (30_encoding.md R50), in the order of spec/opcode_table.json. -/
inductive Instr where
  /-- RDREG: read a register (40_access.md R60) -/
  | rdreg (r : Reg)
  /-- WRREG: write a Header register (40_access.md R61) -/
  | wrreg (r : HdrReg) (v : Word)
  /-- RDBUF: read one buffer byte (40_access.md R62) -/
  | rdbuf (sp : Space) (addr : Half)
  /-- WRBUF: write one buffer byte (40_access.md R63) -/
  | wrbuf (sp : Space) (addr : Half) (x : Byte)
  /-- HCSM: compute the header checksum (41_header_codec.md R70) -/
  | hcsm
  /-- HVFY: verify the header checksum (41_header_codec.md R71) -/
  | hvfy
  /-- HENC: encode the Header into the wire buffer (41_header_codec.md R72) -/
  | henc
  /-- HDEC: decode the wire buffer's first 12 bytes (41_header_codec.md R73) -/
  | hdec
  /-- FSET: set or clear one flag (42_flags.md R81) -/
  | fset (f : Flag) (v : Bool)
  /-- FGET: read one flag (42_flags.md R82) -/
  | fget (f : Flag)
  /-- NOFLG: the `no_flags` predicate (42_flags.md R83) -/
  | noflg
  /-- MENC: encode a Message (43_message_codec.md R90) -/
  | menc (plen : Half)
  /-- MDEC: decode and check a Message (43_message_codec.md R91) -/
  | mdec
deriving DecidableEq, Repr

end Sys2Proof
end

