-- ==== Sys2Proof/Machine/Layout.lean ====
section
/-! DEFINITION. The numbers behind the operand names: register indices and widths (10_state.md R10),
flag bit numbers (42_flags.md R80), space numbers and buffer sizes (20_memory.md R25). -/

namespace Sys2Proof

/-- A Header register as one of the eight registers (10_state.md R10). -/
def HdrReg.reg : HdrReg → Reg
  | .seq => .seq
  | .ackn => .ackn
  | .win => .win
  | .flags => .flags
  | .dlen => .dlen
  | .hcsum => .hcsum

/-- Register index (10_state.md R10, 30_encoding.md R49). -/
def Reg.index : Reg → Byte
  | .seq => 0
  | .ackn => 1
  | .win => 2
  | .flags => 3
  | .dlen => 4
  | .hcsum => 5
  | .mcsum => 6
  | .status => 7

/-- The register an RDREG's `a` field names; indices 8 to 255 name none (10_state.md R10). -/
def Reg.ofIndex? (a : Byte) : Option Reg :=
  match a.toNat with
  | 0 => some .seq
  | 1 => some .ackn
  | 2 => some .win
  | 3 => some .flags
  | 4 => some .dlen
  | 5 => some .hcsum
  | 6 => some .mcsum
  | 7 => some .status
  | _ => none

/-- The register a WRREG's `a` field names; 6 and 7 are read-only (30_encoding.md R52 item 3). -/
def HdrReg.ofIndex? (a : Byte) : Option HdrReg :=
  match a.toNat with
  | 0 => some .seq
  | 1 => some .ackn
  | 2 => some .win
  | 3 => some .flags
  | 4 => some .dlen
  | 5 => some .hcsum
  | _ => none

/-- Width in bits of a Header register (10_state.md R10). -/
def HdrReg.width : HdrReg → Nat
  | .seq => 32
  | .ackn | .win | .hcsum => 16
  | .flags | .dlen => 8

/-- The value fits the register: `imm < 2^width` (30_encoding.md R52 item 4). -/
def HdrReg.fits (r : HdrReg) (v : Word) : Bool :=
  decide (v.toNat < 2 ^ r.width)

/-- Space number (30_encoding.md R49). -/
def Space.index : Space → Byte
  | .pbuf => 0
  | .wbuf => 1

/-- The space an `a` field names (30_encoding.md R52 item 5). -/
def Space.ofIndex? (a : Byte) : Option Space :=
  match a.toNat with
  | 0 => some .pbuf
  | 1 => some .wbuf
  | _ => none

/-- Number of bytes of a buffer (20_memory.md R25). -/
def Space.size : Space → Nat
  | .pbuf => Config.payLen
  | .wbuf => Config.msgLen

/-- The address exists in the buffer; addresses do not wrap (20_memory.md R34). -/
def Space.holds (sp : Space) (addr : Half) : Bool :=
  decide (addr.toNat < sp.size)

/-- Bit number of a flag in FLAGS, which is its flag index (42_flags.md R80). -/
def Flag.bit : Flag → Nat
  | .syn => 0
  | .ack => 1
  | .fin => 2
  | .name => 3

/-- Flag index as an `a` field (30_encoding.md R49). -/
def Flag.index (f : Flag) : Byte := BitVec.ofNat 8 f.bit

/-- The flag an `a` field names (30_encoding.md R52 item 8). -/
def Flag.ofIndex? (a : Byte) : Option Flag :=
  match a.toNat with
  | 0 => some .syn
  | 1 => some .ack
  | 2 => some .fin
  | 3 => some .name
  | _ => none

end Sys2Proof
end

