-- ==== Sys2Proof/WellFormed.lean ====
section
/-! DEFINITION. Well-formed instructions: the field constraints of 30_encoding.md R52 that the types of
`Instr`'s operands do not already say. -/

namespace Sys2Proof

/-- A WRREG value fits its register (30_encoding.md R52 item 4), and a buffer address exists in its
buffer (item 6). The other items (unused fields, register, space and flag indices, byte and flag values)
cannot be violated by a term of `Instr`; Decode.lean refuses the words that violate them. -/
def Instr.wf : Instr → Bool
  | .rdreg _ => true
  | .wrreg r v => r.fits v
  | .rdbuf sp addr => sp.holds addr
  | .wrbuf sp addr _ => sp.holds addr
  | .hcsm => true
  | .hvfy => true
  | .henc => true
  | .hdec => true
  | .fset _ _ => true
  | .fget _ => true
  | .noflg => true
  | .menc _ => true
  | .mdec => true

end Sys2Proof
end

