-- ==== Sys2Proof/Decode.lean ====
section
/-! DEFINITION. The decoder, total on all 2^64 words and refusing by name (30_encoding.md R44 to R52), the
encoder, and the decoder over words as spec/opcode_table.json numbers their bits. -/

namespace Sys2Proof

/-- Why a word is no legal command: R51, and the items of R52. -/
inductive DecodeError where
  /-- the `op` value is none of the 13 (30_encoding.md R51) -/
  | reservedOpcode
  /-- a field the command does not use is not 0 (R52 item 1) -/
  | unusedField
  /-- RDREG with `a` above 7 (R52 item 2) -/
  | noRegister
  /-- WRREG with `a` above 5: read-only or no register (R52 item 3) -/
  | notWritable
  /-- WRREG with a value wider than the register (R52 item 4) -/
  | valueTooWide
  /-- RDBUF or WRBUF with `a` above 1 (R52 item 5) -/
  | noSpace
  /-- RDBUF or WRBUF with an address the buffer lacks (R52 item 6) -/
  | noAddress
  /-- WRBUF with a value above 255 (R52 item 7) -/
  | byteTooWide
  /-- FSET or FGET with `a` above 3 (R52 item 8) -/
  | noFlag
  /-- FSET with a value above 1 (R52 item 9) -/
  | flagValue
deriving DecidableEq, Repr

/-- `op`, bits 63:56 (30_encoding.md R45). -/
def opField (w : Word64) : Byte := w.extractLsb' 56 8

/-- `a`, bits 55:48 (30_encoding.md R45). -/
def aField (w : Word64) : Byte := w.extractLsb' 48 8

/-- `b`, bits 47:32 (30_encoding.md R45). -/
def bField (w : Word64) : Half := w.extractLsb' 32 16

/-- `imm`, bits 31:0 (30_encoding.md R45). -/
def immField (w : Word64) : Word := w.extractLsb' 0 32

/-- The word of four fields (30_encoding.md R45). -/
def packWord (op a : Byte) (b : Half) (imm : Word) : Word64 := op ++ a ++ b ++ imm

/-- Refuse a word whose unused fields are not all zero (30_encoding.md R52 item 1). -/
def needZero (unusedAreZero : Bool) (k : Except DecodeError Instr) : Except DecodeError Instr :=
  if unusedAreZero then k else .error .unusedField

/-- A command without operands: all of `a`, `b`, `imm` are 0 (30_encoding.md R46). -/
def decodePlain (a : Byte) (b : Half) (imm : Word) (i : Instr) : Except DecodeError Instr :=
  needZero (a == 0 && b == 0 && imm == 0) (.ok i)

/-- RDREG's operands (30_encoding.md R46). -/
def decodeRdreg (a : Byte) (b : Half) (imm : Word) : Except DecodeError Instr :=
  needZero (b == 0 && imm == 0) <|
    match Reg.ofIndex? a with
    | some r => .ok (.rdreg r)
    | none => .error .noRegister

/-- WRREG's operands (30_encoding.md R46). -/
def decodeWrreg (a : Byte) (b : Half) (imm : Word) : Except DecodeError Instr :=
  needZero (b == 0) <|
    match HdrReg.ofIndex? a with
    | some r => if r.fits imm then .ok (.wrreg r imm) else .error .valueTooWide
    | none => .error .notWritable

/-- RDBUF's operands (30_encoding.md R46). -/
def decodeRdbuf (a : Byte) (b : Half) (imm : Word) : Except DecodeError Instr :=
  needZero (imm == 0) <|
    match Space.ofIndex? a with
    | some sp => if sp.holds b then .ok (.rdbuf sp b) else .error .noAddress
    | none => .error .noSpace

/-- WRBUF's operands (30_encoding.md R46). -/
def decodeWrbuf (a : Byte) (b : Half) (imm : Word) : Except DecodeError Instr :=
  match Space.ofIndex? a with
  | some sp =>
    if sp.holds b then
      if imm.toNat < 256 then .ok (.wrbuf sp b (imm.setWidth 8)) else .error .byteTooWide
    else .error .noAddress
  | none => .error .noSpace

/-- FSET's operands (30_encoding.md R46). -/
def decodeFset (a : Byte) (b : Half) (imm : Word) : Except DecodeError Instr :=
  needZero (b == 0) <|
    match Flag.ofIndex? a with
    | some f =>
      match imm.toNat with
      | 0 => .ok (.fset f false)
      | 1 => .ok (.fset f true)
      | _ => .error .flagValue
    | none => .error .noFlag

/-- FGET's operands (30_encoding.md R46). -/
def decodeFget (a : Byte) (b : Half) (imm : Word) : Except DecodeError Instr :=
  needZero (b == 0 && imm == 0) <|
    match Flag.ofIndex? a with
    | some f => .ok (.fget f)
    | none => .error .noFlag

/-- MENC's operands: `b` is unconstrained (30_encoding.md R46, R52). -/
def decodeMenc (a : Byte) (b : Half) (imm : Word) : Except DecodeError Instr :=
  needZero (a == 0 && imm == 0) (.ok (.menc b))

/-- The opcode map (30_encoding.md R50); every other opcode is reserved (R51). -/
def decodeFields (op a : Byte) (b : Half) (imm : Word) : Except DecodeError Instr :=
  match op.toNat with
  | 0x01 => decodeRdreg a b imm
  | 0x02 => decodeWrreg a b imm
  | 0x03 => decodeRdbuf a b imm
  | 0x04 => decodeWrbuf a b imm
  | 0x10 => decodePlain a b imm .hcsm
  | 0x11 => decodePlain a b imm .hvfy
  | 0x12 => decodePlain a b imm .henc
  | 0x13 => decodePlain a b imm .hdec
  | 0x20 => decodeFset a b imm
  | 0x21 => decodeFget a b imm
  | 0x22 => decodePlain a b imm .noflg
  | 0x30 => decodeMenc a b imm
  | 0x31 => decodePlain a b imm .mdec
  | _ => .error .reservedOpcode

/-- The decoder: total, one word in, one command or a named refusal out (30_encoding.md R44, R50 to R52). -/
def decode (w : Word64) : Except DecodeError Instr :=
  decodeFields (opField w) (aField w) (bField w) (immField w)

/-- The encoder, from the table of 30_encoding.md R46: the word of an instruction. -/
def encode : Instr → Word64
  | .rdreg r => packWord 0x01 r.index 0 0
  | .wrreg r v => packWord 0x02 r.reg.index 0 v
  | .rdbuf sp addr => packWord 0x03 sp.index addr 0
  | .wrbuf sp addr x => packWord 0x04 sp.index addr (x.setWidth 32)
  | .hcsm => packWord 0x10 0 0 0
  | .hvfy => packWord 0x11 0 0 0
  | .henc => packWord 0x12 0 0 0
  | .hdec => packWord 0x13 0 0 0
  | .fset f v => packWord 0x20 f.index 0 (if v then 1 else 0)
  | .fget f => packWord 0x21 f.index 0 0
  | .noflg => packWord 0x22 0 0 0
  | .menc plen => packWord 0x30 0 plen 0
  | .mdec => packWord 0x31 0 0 0

/-- The word whose low `nbits` bits are those of `w`, every bit above them 0. All rows of the table are
one 64-bit word, bit 63 the most significant, so the table's numbering is the word's own (log entry 10). -/
def tableWord (nbits w : Nat) : Word64 := BitVec.ofNat 64 (w % 2 ^ nbits)

/-- The instruction the decoder reads from a table word (none where it refuses). -/
def decodeTableWord (nbits w : Nat) : Option Instr :=
  match decode (tableWord nbits w) with
  | .ok i => some i
  | .error _ => none

end Sys2Proof
end

