-- ==== Sys2Proof/Machine/State.lean ====
section
/-! DEFINITION. The state of the block as plain data: eight registers and two byte buffers (10_state.md), and
the model's own fields: what the host still presents, what the block has answered, the name of the buffers'
unspecified reset contents and the choice of `MsgSum`. -/

namespace Sys2Proof.Machine

/-- The six response codes, 0 to 5 in this order; 6 to 255 are never returned (60_exceptions.md R100). -/
inductive Code where
  | ok | headerChecksumMismatch | messageChecksumMismatch | payloadTooLarge | illegalCommand | halted
deriving DecidableEq, Repr

/-- The four error kinds a command can raise, codes 1 to 4 (60_exceptions.md R100). -/
inductive ErrorKind where
  | headerChecksumMismatch | messageChecksumMismatch | payloadTooLarge | illegalCommand
deriving DecidableEq, Repr

/-- A response: its `code` and its `val` (30_encoding.md R47). -/
structure Response where
  code : Code
  val : Word
deriving DecidableEq, Repr

/-- What the host can do to the block between two commands (00_scope.md R6). -/
inductive HostInput where
  /-- present one 64-bit command word (10_state.md R21) -/
  | command (w : Word64)
  /-- assert reset; `fill` names the unspecified contents both buffers take (70_reset_and_hazards.md R117, log
  entry 3) -/
  | reset (fill : Nat)
deriving DecidableEq, Repr

/-- A Header value: registers 0 to 5 (10_state.md R14). -/
structure Header where
  seq : Word
  ackn : Half
  win : Half
  flags : Byte
  dlen : Byte
  hcsum : Half
deriving DecidableEq, Repr

/-- The bytes of one buffer written since the last reset: (address, byte) pairs, addresses strictly rising.
An unlisted address holds no value here; reading it through the block gives the reset's free value
(10_state.md R24, log entry 3). -/
abbrev Memory := List Host.Cell

/-- The canonical form: addresses strictly rising and all in the buffer's range. No listed byte equals what an
unlisted address reads as, since that is no value. -/
abbrev Memory.wf (size : Nat) (m : Memory) : Prop :=
  List.Pairwise (· < ·) (m.map Prod.fst) ∧ ∀ c ∈ m, c.1 < size

/-- The state. The first ten fields are the block's (10_state.md R10 to R19); the last four are the model's own
(log entries 1 to 4). -/
structure State where
  /-- `x[0]` SEQ (10_state.md R11) -/
  seq : Word
  /-- `x[1]` ACKN (10_state.md R11) -/
  ackn : Half
  /-- `x[2]` WIN (10_state.md R11) -/
  win : Half
  /-- `x[3]` FLAGS (10_state.md R12) -/
  flags : Byte
  /-- `x[4]` DLEN (10_state.md R13) -/
  dlen : Byte
  /-- `x[5]` HCSUM (10_state.md R13) -/
  hcsum : Half
  /-- `x[6]` MCSUM (10_state.md R15) -/
  mcsum : Word
  /-- `x[7]` STATUS: FATAL bit 0, CAUSE bits 7:4 (10_state.md R16) -/
  status : Byte
  /-- PBUF, the payload buffer (10_state.md R18) -/
  pbuf : Memory
  /-- WBUF, the wire buffer (10_state.md R19) -/
  wbuf : Memory
  /-- the host's inputs not yet taken, the next one first (log entry 1) -/
  pending : List HostInput
  /-- the responses returned since the last reset, oldest first (log entry 2) -/
  responses : List Response
  /-- names the unspecified contents the buffers took at the last reset (log entry 3) -/
  fill : Nat
  /-- which function `MsgSum` is; no step changes it (log entry 4) -/
  msgSum : Config.MsgSumChoice
deriving DecidableEq, Repr

/-- Nothing stops this block with a fault: every error it can meet is answered in the command's own response and
recorded in STATUS, and the next command is processed (60_exceptions.md R100 to R111, 70_reset_and_hazards.md R129).
So there is no constructor (log entry 7). -/
inductive Fault where
deriving DecidableEq, Repr

/-- The refusals. No arm of `exec` raises one: all 13 commands have their meaning. -/
inductive Refusal where
  /-- An instruction whose meaning is not written yet; raised by `exec`'s arm for it, and by no arm of this model.
  Safe: the run stops where the block would go on. -/
  | notModelled (mnemonic : String)
deriving DecidableEq, Repr

/-- The machine right after reset: every register zero (10_state.md R23), the buffers unspecified with nothing
listed (R24, log entry 3), no input presented and nothing answered (log entries 1 and 2), and `MsgSum` the spec's
default instance (43_message_codec.md R88, log entry 4). -/
def State.reset : State where
  seq := 0
  ackn := 0
  win := 0
  flags := 0
  dlen := 0
  hcsum := 0
  mcsum := 0
  status := 0
  pbuf := []
  wbuf := []
  pending := []
  responses := []
  fill := 0
  msgSum := .crc32

end Sys2Proof.Machine
end

