-- ==== Sys2Proof/Machine/Flags.lean ====
section
/-! DEFINITION. Everything bit by bit: the flags byte (42_flags.md), the fields of STATUS (10_state.md R16) and the
numbers of the response codes (60_exceptions.md R100). -/

namespace Sys2Proof.Machine

/-- A flag's mask, `1 << a` as an 8-bit value (42_flags.md R80). -/
def flagMask (f : Flag) : Byte := 1#8 <<< f.bit

/-- The flags byte with one flag set or cleared, all other bits preserved (42_flags.md R81). -/
def setFlag (x : Byte) (f : Flag) (v : Bool) : Byte :=
  if v then x ||| flagMask f else x &&& ~~~ (flagMask f)

/-- One flag of the flags byte (42_flags.md R82). -/
def getFlag (x : Byte) (f : Flag) : Bool := x.getLsbD f.bit

/-- `no_flags`: all eight bits are zero (42_flags.md R83, 90_conflicts.md C4). -/
def noFlags (x : Byte) : Bool := x == 0

/-- A boolean answer: 1 true, 0 false (30_encoding.md R47, 92_eei_decisions.md D22). -/
def boolVal (p : Bool) : Word := if p then 1 else 0

/-- The number of a response code (60_exceptions.md R100). -/
def Code.num : Code → Byte
  | .ok => 0
  | .headerChecksumMismatch => 1
  | .messageChecksumMismatch => 2
  | .payloadTooLarge => 3
  | .illegalCommand => 4
  | .halted => 5

/-- The code an error kind is reported with (30_encoding.md R47). -/
def ErrorKind.code : ErrorKind → Code
  | .headerChecksumMismatch => .headerChecksumMismatch
  | .messageChecksumMismatch => .messageChecksumMismatch
  | .payloadTooLarge => .payloadTooLarge
  | .illegalCommand => .illegalCommand

/-- The fatal class (60_exceptions.md R100, R110). -/
def ErrorKind.isFatal : ErrorKind → Bool
  | .headerChecksumMismatch => false
  | .messageChecksumMismatch => false
  | .payloadTooLarge => true
  | .illegalCommand => true

/-- FATAL, bit 0 of a STATUS value (10_state.md R16). -/
def fatalBit (x : Byte) : Bool := x.getLsbD 0

/-- CAUSE, bits 7:4 of a STATUS value (10_state.md R16). -/
def causeField (x : Byte) : BitVec 4 := x.extractLsb' 4 4

/-- STATUS after an error: CAUSE takes the kind's code; FATAL becomes 1 for the fatal class and is left as it is
otherwise (10_state.md R17, 60_exceptions.md R109, R110). Bits 3:1 are left as they are, which is 0 in every state a
run reaches (10_state.md R16, log entry 5). -/
def statusAfter (x : Byte) (k : ErrorKind) : Byte :=
  (x &&& 0x0F#8) ||| (k.code.num <<< 4) ||| (if k.isFatal then 1#8 else 0#8)

/-- STATUS.FATAL of a state. -/
def State.fatal (s : State) : Bool := fatalBit s.status

/-- STATUS.CAUSE of a state. -/
def State.cause (s : State) : BitVec 4 := causeField s.status

/-- The 64-bit response word: `code` at 63:56, zero at 55:32, `val` at 31:0 (30_encoding.md R47). -/
def Response.word (r : Response) : Word64 := r.code.num ++ 0#24 ++ r.val

end Sys2Proof.Machine
end

