-- ==== Sys2Proof/Machine/Operands.lean ====
section
/-! DEFINITION. The register file: reading any of the eight registers, writing a Header register, and the Header
value as a whole (10_state.md R10 to R16). -/

namespace Sys2Proof.Machine

/-- `zext_32(x[i])`: a register read, zeros above its width (00_scope.md R9, 40_access.md R60). -/
def State.readReg (s : State) : Reg → Word
  | .seq => s.seq
  | .ackn => s.ackn.setWidth 32
  | .win => s.win.setWidth 32
  | .flags => s.flags.setWidth 32
  | .dlen => s.dlen.setWidth 32
  | .hcsum => s.hcsum.setWidth 32
  | .mcsum => s.mcsum
  | .status => s.status.setWidth 32

/-- `x[a] <- imm[width(a)-1 : 0]` (40_access.md R61, 30_encoding.md R48). -/
def State.writeReg (s : State) (r : HdrReg) (v : Word) : State :=
  match r with
  | .seq => { s with seq := v }
  | .ackn => { s with ackn := v.setWidth 16 }
  | .win => { s with win := v.setWidth 16 }
  | .flags => { s with flags := v.setWidth 8 }
  | .dlen => { s with dlen := v.setWidth 8 }
  | .hcsum => { s with hcsum := v.setWidth 16 }

/-- The Header value of a state (10_state.md R14). -/
def State.header (s : State) : Header where
  seq := s.seq
  ackn := s.ackn
  win := s.win
  flags := s.flags
  dlen := s.dlen
  hcsum := s.hcsum

/-- Registers 0 to 5 take a Header value (41_header_codec.md R73). -/
def State.setHeader (s : State) (h : Header) : State :=
  { s with
    seq := h.seq, ackn := h.ackn, win := h.win, flags := h.flags, dlen := h.dlen, hcsum := h.hcsum }

end Sys2Proof.Machine
end

