-- ==== Sys2Proof/Machine/Ops.lean ====
section
/-! DEFINITION. The shared operations: byte order, the two buffers, ending a command with an answer or an error, the
processing order every command passes, and the reset event. -/

namespace Sys2Proof.Machine

/-! ## Byte order (00_scope.md R8) -/

/-- `be16(v)`: most significant byte first. -/
def be16 (v : Half) : List Byte := [v.extractLsb' 8 8, v.extractLsb' 0 8]

/-- `be32(v)`: most significant byte first. -/
def be32 (v : Word) : List Byte :=
  [v.extractLsb' 24 8, v.extractLsb' 16 8, v.extractLsb' 8 8, v.extractLsb' 0 8]

/-- `u16be`: the 16-bit value of two bytes, the first the most significant. -/
def u16be (b0 b1 : Byte) : Half := b0 ++ b1

/-- `u32be`: the 32-bit value of four bytes, the first the most significant. -/
def u32be (b0 b1 b2 b3 : Byte) : Word := b0 ++ b1 ++ b2 ++ b3

/-- `B[i]`. The commands only ask for an `i` below the sequence's length; past the end this is 0 (log entry 11). -/
def byteAt (B : List Byte) (i : Nat) : Byte := B.getD i 0

/-- `zeros(n)`. -/
def zeros (n : Nat) : List Byte := List.replicate n 0

/-! ## The buffers (20_memory.md) -/

/-- The byte listed at an address, if one is. -/
def Memory.byte? (m : Memory) (a : Nat) : Option Byte := List.lookup a m

/-- `k n`, with `n` brought to a numeral first when it is evaluated; `withNat_eq` says it is `k n`. -/
def withNat {α : Type} (n : Nat) (k : Nat → α) : α :=
  match n with
  | 0 => k 0
  | m + 1 => k (m + 1)

/-- The cells of a byte sequence laid out from address `a` up. -/
def Memory.cells : Nat → List Byte → Memory
  | _, [] => []
  | a, x :: xs => (a, x) :: withNat (a + 1) fun a' => Memory.cells a' xs

/-- Store a byte sequence from address `a` up: the cells below it, its own, the cells above it. -/
def Memory.store (m : Memory) (a : Nat) (bs : List Byte) : Memory :=
  m.filter (fun c => decide (c.1 < a)) ++ Memory.cells a bs ++
    m.filter (fun c => decide (a + bs.length ≤ c.1))

/-- One of the two buffers (20_memory.md R25). -/
def State.buffer (s : State) : Space → Memory
  | .pbuf => s.pbuf
  | .wbuf => s.wbuf

/-- Replace one of the two buffers; the other is untouched, the spaces are disjoint (20_memory.md R25). -/
def State.setBuffer (s : State) (sp : Space) (m : Memory) : State :=
  match sp with
  | .pbuf => { s with pbuf := m }
  | .wbuf => { s with wbuf := m }

/-- What an address that nothing has written since the last reset reads as: the free value of that reset's
contents, the same one on every read (10_state.md R24, log entry 3). -/
def unwritten (fill : Nat) (sp : Space) (a : Nat) : Byte :=
  match sp with
  | .pbuf => Config.resetPbuf fill a
  | .wbuf => Config.resetWbuf fill a

/-- `S[a]`: one byte of a buffer (00_scope.md R9). -/
def State.readByte (s : State) (sp : Space) (a : Nat) : Byte :=
  ((s.buffer sp).byte? a).getD (unwritten s.fill sp a)

/-- The addresses rise strictly. -/
def Memory.rising : Memory → Bool
  | [] => true
  | [_] => true
  | c :: d :: m => Nat.blt c.1 d.1 && Memory.rising (d :: m)

/-- The bytes at `a` to `a+n-1` of rising cells none of which lies below `a`, in one pass; `other` gives the
unlisted ones. -/
def Memory.walk (other : Nat → Byte) : Nat → Nat → Memory → List Byte
  | 0, _, _ => []
  | n + 1, a, [] => other a :: withNat (a + 1) fun a' => Memory.walk other n a' []
  | n + 1, a, c :: m =>
    bif Nat.beq c.1 a then c.2 :: withNat (a + 1) fun a' => Memory.walk other n a' m
    else other a :: withNat (a + 1) fun a' => Memory.walk other n a' (c :: m)

/-- `MemRead(S, a, n)`: the bytes at `a` to `a+n-1` in address order (00_scope.md R9). It is
`(List.range n).map fun i => s.readByte sp (a + i)` in every state (`State.memRead_eq` in Laws/Memory.lean); on a
buffer in canonical form it is evaluated in one pass. -/
def State.memRead (s : State) (sp : Space) (a n : Nat) : List Byte :=
  bif (s.buffer sp).rising then
    Memory.walk (unwritten s.fill sp) n a ((s.buffer sp).filter fun c => decide (a ≤ c.1))
  else (List.range n).map fun i => s.readByte sp (a + i)

/-- `MemWrite(S, a, n, B)`, `n` the length of `B` (00_scope.md R9). -/
def State.memWrite (s : State) (sp : Space) (a : Nat) (bs : List Byte) : State :=
  s.setBuffer sp ((s.buffer sp).store a bs)

/-! ## Ending a command -/

/-- Return one response (30_encoding.md R47). -/
def State.answer (s : State) (r : Response) : State :=
  { s with responses := s.responses ++ [r] }

/-- `respond(v)`: code OK and value `v` (00_scope.md R9, 30_encoding.md R47). STATUS is unchanged (10_state.md R17). -/
def State.respond (s : State) (v : Word) : State := s.answer ⟨.ok, v⟩

/-- `raise K`, the one way an error is entered: the response carries the code and `val` 0, STATUS records it, and
nothing else is written (60_exceptions.md R109, R110; 10_state.md R17; 20_memory.md R32). Nothing is saved and control
goes nowhere: the next command the host presents is processed next, so there is no return operation beside it
(R111); what leaves the fatal condition is `State.resetEvent`. -/
def State.raise (s : State) (k : ErrorKind) : State :=
  { s with status := statusAfter s.status k }.answer ⟨k.code, 0⟩

/-- The answer of a halted block: 5/0, and no state change, not even STATUS (60_exceptions.md R105). -/
def State.refuseHalted (s : State) : State := s.answer ⟨.halted, 0⟩

/-- The processing order of every command word (60_exceptions.md R107): while FATAL = 1 only a legal RDREG or RDBUF
(`isRead`) executes and every other word is answered Halted; then an illegal word raises IllegalCommand; then the
command's own action runs, which ends in `respond` or `raise`. -/
def State.process (s : State) (isRead legal : Bool) (act : State → State) : State :=
  if s.fatal && !(isRead && legal) then s.refuseHalted
  else if !legal then s.raise .illegalCommand
  else act s

/-- A word that is no legal command (60_exceptions.md R104, R107 steps 1 and 2). -/
def State.illegalWord (s : State) : State := s.process false false id

/-- The reset event (70_reset_and_hazards.md R117, R118): every register zero, both buffers' contents unspecified
(those named by `fill`), a new run with nothing answered yet (R130). What the host still presents, and which function
`MsgSum` is, are no state of the block (00_scope.md R6) and stay. -/
def State.resetEvent (s : State) (fill : Nat) : State :=
  { State.reset with pending := s.pending, fill := fill, msgSum := s.msgSum }

end Sys2Proof.Machine
end

