-- ==== Sys2Proof/Machine/Access.lean ====
section
/-! DEFINITION. The access commands (40_access.md): RDREG, WRREG, RDBUF, WRBUF. -/

namespace Sys2Proof.Machine

/-- RDREG (40_access.md R60): answer the register; one of the two commands a halted block still executes. -/
def execRdreg (r : Reg) (s : State) : Host.Outcome State Fault Refusal :=
  .next (s.process true true fun s => s.respond (s.readReg r))

/-- WRREG (40_access.md R61): write one Header register; nothing else is checked or updated. -/
def execWrreg (r : HdrReg) (v : Word) (s : State) : Host.Outcome State Fault Refusal :=
  .next (s.process false (r.fits v) fun s => (s.writeReg r v).respond 0)

/-- RDBUF (40_access.md R62): answer one byte; one of the two commands a halted block still executes. -/
def execRdbuf (sp : Space) (addr : Half) (s : State) : Host.Outcome State Fault Refusal :=
  .next (s.process true (sp.holds addr) fun s => s.respond ((s.readByte sp addr.toNat).setWidth 32))

/-- WRBUF (40_access.md R63): write one byte. -/
def execWrbuf (sp : Space) (addr : Half) (x : Byte) (s : State) : Host.Outcome State Fault Refusal :=
  .next (s.process false (sp.holds addr) fun s => (s.memWrite sp addr.toNat [x]).respond 0)

end Sys2Proof.Machine
end

