-- ==== Sys2Proof/Machine/FlagAccess.lean ====
section
/-! DEFINITION. The flag accessors (42_flags.md): FSET, FGET, NOFLG. -/

namespace Sys2Proof.Machine

/-- FSET (42_flags.md R81): set or clear one named flag; HCSUM is not recomputed. -/
def execFset (f : Flag) (v : Bool) (s : State) : Host.Outcome State Fault Refusal :=
  .next (s.process false true fun s => { s with flags := setFlag s.flags f v }.respond 0)

/-- FGET (42_flags.md R82): answer one named flag. -/
def execFget (f : Flag) (s : State) : Host.Outcome State Fault Refusal :=
  .next (s.process false true fun s => s.respond (boolVal (getFlag s.flags f)))

/-- NOFLG (42_flags.md R83): answer whether all eight bits of FLAGS are zero. -/
def execNoflg (s : State) : Host.Outcome State Fault Refusal :=
  .next (s.process false true fun s => s.respond (boolVal (noFlags s.flags)))

end Sys2Proof.Machine
end

