-- ==== Sys2Proof/Machine/Checksum.lean ====
section
/-! DEFINITION. The two checksums: the ones'-complement header checksum (41_header_codec.md R66, R67) and the message
checksum `MsgSum` with its default instance CRC-32/ISO-HDLC (43_message_codec.md R87, R88). -/

namespace Sys2Proof.Machine

/-- `oc_add16`: 16-bit addition with end-around carry (41_header_codec.md R66). -/
def ocAdd16 (s w : Half) : Half :=
  let t := s.toNat + w.toNat
  BitVec.ofNat 16 (t % 0x10000 + t / 0x10000)

/-- Word `i` of a byte sequence, bytes `2i` and `2i+1`, big-endian (41_header_codec.md R67). -/
def hdrWord (B : List Byte) (i : Nat) : Half := u16be (byteAt B (2 * i)) (byteAt B (2 * i + 1))

/-- `HdrSum(B)`: the complement of the ones'-complement sum of the five words of ten bytes (41_header_codec.md R67). -/
def hdrSum (B : List Byte) : Half :=
  ~~~ ([0, 1, 2, 3, 4].foldl (fun s i => ocAdd16 s (hdrWord B i)) 0)

/-- The reflected polynomial of CRC-32/ISO-HDLC (43_message_codec.md R88). -/
def crcPoly : Word := 0xEDB88320

/-- One shift of the CRC register (43_message_codec.md R88). -/
def crcShift (c : Word) : Word :=
  if c.getLsbD 0 then (c >>> 1) ^^^ crcPoly else c >>> 1

/-- `n` shifts of the CRC register. -/
def crcShifts : Nat → Word → Word
  | 0, c => c
  | n + 1, c => crcShifts n (crcShift c)

/-- One byte into the CRC register: exclusive-or it in, then shift 8 times (43_message_codec.md R88). -/
def crcByte (c : Word) (x : Byte) : Word := crcShifts 8 (c ^^^ x.setWidth 32)

/-- `k c`, with `c` brought to a numeral first when it is evaluated; `withNumeral_eq` says it is `k c`. -/
def withNumeral {α : Type} (c : Word) (k : Word → α) : α :=
  withNat c.toNat fun n => k (BitVec.ofNat 32 n)

/-- The CRC register after a byte sequence, in increasing index (43_message_codec.md R88). -/
def crcFrom : Word → List Byte → Word
  | c, [] => c
  | c, x :: xs => withNumeral (crcByte c x) fun c' => crcFrom c' xs

/-- `CRC32(B)` (43_message_codec.md R88). -/
def crc32 (B : List Byte) : Word := crcFrom 0xFFFFFFFF B ^^^ 0xFFFFFFFF

/-- `MsgSum`, as the state's parameter chooses it (00_scope.md R5, 43_message_codec.md R87, log entry 4). -/
def msgSumOf : Config.MsgSumChoice → List Byte → Word
  | .crc32, B => crc32 B
  | .unnamed n, B => Config.unnamedMsgSum n B

/-- `MsgIn(H, P)`: the frame with its checksum field zero (43_message_codec.md R87, 90_conflicts.md C7). -/
def msgIn (H P : List Byte) : List Byte := H ++ zeros Config.mckLen ++ P

end Sys2Proof.Machine
end

