-- ==== Sys2Proof/Machine/HeaderCodec.lean ====
section
/-! DEFINITION. The header codec (41_header_codec.md): packing and unpacking a Header, and the commands HCSM, HVFY,
HENC, HDEC. -/

namespace Sys2Proof.Machine

/-- `HdrBytes10`: the first ten bytes of a Header's encoding, which do not depend on HCSUM (41_header_codec.md R65). -/
def hdrBytes10 (h : Header) : List Byte :=
  be32 h.seq ++ be16 h.ackn ++ be16 h.win ++ [h.flags] ++ [h.dlen]

/-- `HdrBytes`: the 12-byte encoding of a Header value (41_header_codec.md R65, 30_encoding.md R40). -/
def hdrBytes (h : Header) : List Byte := hdrBytes10 h ++ be16 h.hcsum

/-- `HdrFields(B)`: the Header value of a 12-byte sequence (41_header_codec.md R69). -/
def hdrFields (B : List Byte) : Header where
  seq := u32be (byteAt B 0) (byteAt B 1) (byteAt B 2) (byteAt B 3)
  ackn := u16be (byteAt B 4) (byteAt B 5)
  win := u16be (byteAt B 6) (byteAt B 7)
  flags := byteAt B 8
  dlen := byteAt B 9
  hcsum := u16be (byteAt B 10) (byteAt B 11)

/-- `HdrSum(HdrBytes10())` of a state's registers: what HCSM stores and HVFY compares with. -/
def State.headerSum (s : State) : Half := hdrSum (hdrBytes10 s.header)

/-- HCSM (41_header_codec.md R70): HCSUM takes the computed checksum, which is also the answer. -/
def execHcsm (s : State) : Host.Outcome State Fault Refusal :=
  .next (s.process false true fun s =>
    { s with hcsum := s.headerSum }.respond (s.headerSum.setWidth 32))

/-- HVFY (41_header_codec.md R71): compare the stored checksum with the recomputed one; a mismatch is the answer 0. -/
def execHvfy (s : State) : Host.Outcome State Fault Refusal :=
  .next (s.process false true fun s => s.respond (boolVal (s.hcsum == s.headerSum)))

/-- HENC (41_header_codec.md R72): pack registers 0 to 5, HCSUM as stored, into WBUF[0..11]. -/
def execHenc (s : State) : Host.Outcome State Fault Refusal :=
  .next (s.process false true fun s => (s.memWrite .wbuf 0 (hdrBytes s.header)).respond 0)

/-- HDEC (41_header_codec.md R73): unpack WBUF[0..11] into registers 0 to 5, without validation. -/
def execHdec (s : State) : Host.Outcome State Fault Refusal :=
  .next (s.process false true fun s =>
    (s.setHeader (hdrFields (s.memRead .wbuf 0 Config.hdrLen))).respond 0)

end Sys2Proof.Machine
end

