-- ==== Sys2Proof/Machine/MessageCodec.lean ====
section
/-! DEFINITION. The message codec (43_message_codec.md): MENC and MDEC. -/

namespace Sys2Proof.Machine

/-- MENC's Header value: the registers' SEQ, ACKN, WIN and FLAGS, `data_length` = `plen`, and the checksum computed over
the ten bytes so formed; the old DLEN and HCSUM do not enter (43_message_codec.md R90). -/
def State.mencHeader (s : State) (plen : Half) : Header :=
  let h := { s.header with dlen := plen.setWidth 8 }
  { h with hcsum := hdrSum (hdrBytes10 h) }

/-- MENC's payload region: PBUF[0..plen-1] padded with zeros to 1000 bytes (43_message_codec.md R90). -/
def State.mencPayload (s : State) (plen : Half) : List Byte :=
  s.memRead .pbuf 0 plen.toNat ++ zeros (Config.payLen - plen.toNat)

/-- MENC's message checksum (43_message_codec.md R90). -/
def State.mencSum (s : State) (plen : Half) : Word :=
  msgSumOf s.msgSum (msgIn (hdrBytes (s.mencHeader plen)) (s.mencPayload plen))

/-- The frame MENC emits, with message checksum `m`: header, checksum, padded payload (43_message_codec.md R90,
30_encoding.md R42). -/
def State.mencFrame (s : State) (plen : Half) (m : Word) : List Byte :=
  hdrBytes (s.mencHeader plen) ++ be32 m ++ s.mencPayload plen

/-- MENC's writes once its length test has passed: DLEN, HCSUM, MCSUM and all of WBUF (43_message_codec.md R90). -/
def State.mencWrites (s : State) (plen : Half) : State :=
  withNumeral (s.mencSum plen) fun m =>
    { s with
      dlen := (s.mencHeader plen).dlen
      hcsum := (s.mencHeader plen).hcsum
      mcsum := m }.memWrite .wbuf 0 (s.mencFrame plen m)

/-- MENC (43_message_codec.md R90): both length tests raise PayloadTooLarge. -/
def execMenc (plen : Half) (s : State) : Host.Outcome State Fault Refusal :=
  .next (s.process false true fun s =>
    if plen.toNat > Config.payLen then s.raise .payloadTooLarge
    else if plen.toNat > Config.dlenMax then s.raise .payloadTooLarge
    else (s.mencWrites plen).respond 0)

/-- The header region of WBUF: its first 12 bytes (43_message_codec.md R91). -/
def State.wireHeader (s : State) : List Byte := s.memRead .wbuf 0 Config.hdrLen

/-- The message-checksum field of WBUF: bytes 12 to 15, big-endian (43_message_codec.md R91). -/
def State.wireSum (s : State) : Word :=
  u32be (s.readByte .wbuf 12) (s.readByte .wbuf 13) (s.readByte .wbuf 14) (s.readByte .wbuf 15)

/-- The payload region of WBUF: its last 1000 bytes (43_message_codec.md R91). -/
def State.wirePayload (s : State) : List Byte := s.memRead .wbuf Config.payOff Config.payLen

/-- The frame's stored header checksum matches a fresh computation (60_exceptions.md R101). -/
def State.headerCheck (s : State) : Bool :=
  (hdrFields s.wireHeader).hcsum == hdrSum (s.wireHeader.take Config.hdrCover)

/-- The frame's stored message checksum matches a fresh computation (60_exceptions.md R102). -/
def State.messageCheck (s : State) : Bool :=
  s.wireSum == msgSumOf s.msgSum (msgIn s.wireHeader s.wirePayload)

/-- MDEC's writes once both checks have passed: registers 0 to 6 and all of PBUF (43_message_codec.md R91). -/
def State.mdecWrites (s : State) : State :=
  { s.setHeader (hdrFields s.wireHeader) with mcsum := s.wireSum }.memWrite .pbuf 0 s.wirePayload

/-- MDEC (43_message_codec.md R91): the header check first, then the message check, then the writes. -/
def execMdec (s : State) : Host.Outcome State Fault Refusal :=
  .next (s.process false true fun s =>
    if !s.headerCheck then s.raise .headerChecksumMismatch
    else if !s.messageCheck then s.raise .messageChecksumMismatch
    else s.mdecWrites.respond 0)

end Sys2Proof.Machine
end

