-- ==== Sys2Proof/Machine/Dispatch.lean ====
section
/-! DEFINITION. One arm per command, in the order of spec/opcode_table.json. -/

namespace Sys2Proof.Machine

def exec (i : Instr) (s : State) : Host.Outcome State Fault Refusal :=
  match i with
  | .rdreg r => Sys2Proof.Machine.execRdreg r s
  | .wrreg r v => Sys2Proof.Machine.execWrreg r v s
  | .rdbuf sp addr => Sys2Proof.Machine.execRdbuf sp addr s
  | .wrbuf sp addr x => Sys2Proof.Machine.execWrbuf sp addr x s
  | .hcsm => Sys2Proof.Machine.execHcsm s
  | .hvfy => Sys2Proof.Machine.execHvfy s
  | .henc => Sys2Proof.Machine.execHenc s
  | .hdec => Sys2Proof.Machine.execHdec s
  | .fset f v => Sys2Proof.Machine.execFset f v s
  | .fget f => Sys2Proof.Machine.execFget f s
  | .noflg => Sys2Proof.Machine.execNoflg s
  | .menc plen => Sys2Proof.Machine.execMenc plen s
  | .mdec => Sys2Proof.Machine.execMdec s

end Sys2Proof.Machine
end

