-- ==== Sys2Proof/Machine/Command.lean ====
section
/-! DEFINITION. How the block takes what the host presents (10_state.md R21): one command word or one reset event. -/

namespace Sys2Proof.Machine

/-- One command word, processed to its end (60_exceptions.md R107, 20_memory.md R32): decoded and executed, or, where
it is no legal command, answered Halted or IllegalCommand. -/
def processWord (w : Word64) (s : State) : Host.Outcome State Fault Refusal :=
  match decode w with
  | .ok i => exec i s
  | .error _ => .next s.illegalWord

/-- One input of the host. -/
def takeInput : HostInput → State → Host.Outcome State Fault Refusal
  | .command w, s => processWord w s
  | .reset fill, s => .next (s.resetEvent fill)

end Sys2Proof.Machine
end

