-- ==== Sys2Proof/Machine/Step.lean ====
section
/-! DEFINITION. One step: the block takes the host's next input. Beside it, how a table word is presented. -/

namespace Sys2Proof.Machine

/-- One step. The block fetches nothing: it takes the first input the host presents and processes it to its end
(10_state.md R21, 20_memory.md R32, R35). With nothing presented it idles and nothing changes (log entry 1). -/
def step (s : State) : Host.Outcome State Fault Refusal :=
  match s.pending with
  | [] => .next s
  | input :: rest => takeInput input { s with pending := rest }

/-- The state in which the host presents this table word next, so that the very next step processes it (log entry 9). -/
def State.withFetchWord (s : State) (nbits w : Nat) : State :=
  { s with pending := .command (tableWord nbits w) :: s.pending }

end Sys2Proof.Machine
end

