-- ==== Sys2Proof/Safety.lean ====
section
/-! DEFINITION. The terms the claims use: which words are legal commands, what a run that has gone wrong is, the
invariants of the block, and the host's duties that can be said of a state. -/

namespace Sys2Proof.Machine

/-! ## Legal words, as numbers (30_encoding.md R45, R46, R50, R52) -/

/-- The `op` field of a word, as a number. -/
def opNum (w : Word64) : Nat := w.toNat / 2 ^ 56

/-- The `a` field of a word, as a number. -/
def aNum (w : Word64) : Nat := w.toNat / 2 ^ 48 % 2 ^ 8

/-- The `b` field of a word, as a number. -/
def bNum (w : Word64) : Nat := w.toNat / 2 ^ 32 % 2 ^ 16

/-- The `imm` field of a word, as a number. -/
def immNum (w : Word64) : Nat := w.toNat % 2 ^ 32

/-- A buffer address that exists: space 0 is PBUF, space 1 is WBUF (30_encoding.md R52 items 5 and 6). -/
abbrev AddressExists (space addr : Nat) : Prop := (space = 0 ∧ addr < 1000) ∨ (space = 1 ∧ addr < 1016)

/-- A value a WRREG of this register index may carry (30_encoding.md R52 items 3 and 4). -/
abbrev ValueFits (index value : Nat) : Prop :=
  index = 0 ∨ ((index = 1 ∨ index = 2 ∨ index = 5) ∧ value < 2 ^ 16) ∨
    ((index = 3 ∨ index = 4) ∧ value < 2 ^ 8)

/-- A word is a legal command: one line per row of 30_encoding.md R46, under the constraints of R52. -/
abbrev LegalWord (w : Word64) : Prop :=
  (opNum w = 0x01 ∧ aNum w ≤ 7 ∧ bNum w = 0 ∧ immNum w = 0) ∨
  (opNum w = 0x02 ∧ ValueFits (aNum w) (immNum w) ∧ bNum w = 0) ∨
  (opNum w = 0x03 ∧ AddressExists (aNum w) (bNum w) ∧ immNum w = 0) ∨
  (opNum w = 0x04 ∧ AddressExists (aNum w) (bNum w) ∧ immNum w < 256) ∨
  ((opNum w = 0x10 ∨ opNum w = 0x11 ∨ opNum w = 0x12 ∨ opNum w = 0x13) ∧
    aNum w = 0 ∧ bNum w = 0 ∧ immNum w = 0) ∨
  (opNum w = 0x20 ∧ aNum w ≤ 3 ∧ bNum w = 0 ∧ immNum w ≤ 1) ∨
  (opNum w = 0x21 ∧ aNum w ≤ 3 ∧ bNum w = 0 ∧ immNum w = 0) ∨
  (opNum w = 0x22 ∧ aNum w = 0 ∧ bNum w = 0 ∧ immNum w = 0) ∨
  (opNum w = 0x30 ∧ aNum w = 0 ∧ immNum w = 0) ∨
  (opNum w = 0x31 ∧ aNum w = 0 ∧ bNum w = 0 ∧ immNum w = 0)

/-! ## Steps -/

/-- The host presents this word next. -/
def State.present (s : State) (w : Word64) : State :=
  { s with pending := .command w :: s.pending }

/-- The state after one command word; `processWord` always gives one. -/
def wordEffect (s : State) (w : Word64) : State :=
  match processWord w s with
  | .next t => t
  | .fault _ => s
  | .refused _ => s

/-! ## The frame in WBUF (60_exceptions.md R101, R102) -/

/-- `u16be(WBUF[10..11]) = HdrSum(WBUF[0..9])`. -/
def WireHeaderValid (s : State) : Prop :=
  u16be (s.readByte .wbuf 10) (s.readByte .wbuf 11) = hdrSum (s.memRead .wbuf 0 10)

/-- `u32be(WBUF[12..15]) = MsgSum(MsgIn(WBUF[0..11], WBUF[16..1015]))`. -/
def WireMessageValid (s : State) : Prop :=
  u32be (s.readByte .wbuf 12) (s.readByte .wbuf 13) (s.readByte .wbuf 14) (s.readByte .wbuf 15) =
    msgSumOf s.msgSum (msgIn (s.memRead .wbuf 0 12) (s.memRead .wbuf 16 1000))

/-- The Message value of a state (10_state.md R14). -/
def State.message (s : State) : Header × Word × List Byte :=
  (s.header, s.mcsum, s.memRead .pbuf 0 1000)

/-- The application data of a decoded Message, PBUF[0..DLEN-1] (70_reset_and_hazards.md R126). -/
def State.appData (s : State) : List Byte := s.memRead .pbuf 0 s.dlen.toNat

/-! ## Runs (70_reset_and_hazards.md R130) -/

/-- The codes of a run that has gone wrong: 3, 4 and 5. -/
def Code.isWrong : Code → Bool
  | .payloadTooLarge | .illegalCommand | .halted => true
  | .ok | .headerChecksumMismatch | .messageChecksumMismatch => false

/-- A run has gone wrong iff some response has code 3, 4 or 5 (70_reset_and_hazards.md R130). -/
def GoneWrong (s : State) : Prop := ∃ r ∈ s.responses, r.code.isWrong = true

/-- The codes CAUSE records: 1 to 4 (10_state.md R16). -/
def Code.isError : Code → Bool
  | .headerChecksumMismatch | .messageChecksumMismatch | .payloadTooLarge | .illegalCommand => true
  | .ok | .halted => false

/-- The code number of the most recent response with a code from 1 to 4, or 0 if there is none (10_state.md R16). -/
def lastErrorNum (log : List Response) : Nat :=
  match log.reverse.find? (fun r => r.code.isError) with
  | some r => r.code.num.toNat
  | none => 0

/-! ## Invariants -/

/-- The buffers are in canonical form and list only addresses they have, and STATUS holds one of the values its
fields allow together: bits 3:1 zero, CAUSE 0 to 4, FATAL set exactly with a fatal CAUSE (10_state.md R16, R17, R18,
R19). -/
def BlockInv (s : State) : Prop :=
  Memory.wf 1000 s.pbuf ∧ Memory.wf 1016 s.wbuf ∧
    (s.status = 0x00 ∨ s.status = 0x10 ∨ s.status = 0x20 ∨ s.status = 0x31 ∨ s.status = 0x41)

/-- STATUS tells what the run's responses were: FATAL is 1 iff the run has gone wrong (70_reset_and_hazards.md R130),
CAUSE is the last error's code (10_state.md R16), and no response with a code other than 0 carries a value
(30_encoding.md R47). -/
def RunInv (s : State) : Prop :=
  (s.fatal = true ↔ GoneWrong s) ∧ s.cause.toNat = lastErrorNum s.responses ∧
    ∀ r ∈ s.responses, r.code ≠ .ok → r.val = 0

/-! ## Host duties (70_reset_and_hazards.md R120, R121) -/

/-- Every one of the `n` bytes from `a` up has been written since the last reset. -/
def Written (s : State) (sp : Space) (a n : Nat) : Prop :=
  ∀ i < n, ((s.buffer sp).byte? (a + i)).isSome = true

/-- What the host must have loaded before a command so that no unspecified byte enters its result: WBUF for HDEC and
MDEC (R120), PBUF[0..plen-1] for MENC (R121), the byte itself for RDBUF (40_access.md R62). -/
def CommandDuty : Instr → State → Prop
  | .rdbuf sp addr, s => Written s sp addr.toNat 1
  | .hdec, s => Written s .wbuf 0 12
  | .menc plen, s => Written s .pbuf 0 plen.toNat
  | .mdec, s => Written s .wbuf 0 1016
  | .rdreg _, _ | .wrreg _ _, _ | .wrbuf _ _ _, _ | .hcsm, _ | .hvfy, _ | .henc, _ | .fset _ _, _
  | .fget _, _ | .noflg, _ => True

/-! ## Differences between byte sequences -/

/-- Two sequences of one length differ in exactly one byte. -/
def DifferInOneByte (A B : List Byte) : Prop :=
  A.length = B.length ∧ ∃ i < A.length, byteAt A i ≠ byteAt B i ∧ ∀ j, j ≠ i → byteAt A j = byteAt B j

/-- The named property MsgSumByteSensitive of a message-checksum function (43_message_codec.md R87). -/
def MsgSumByteSensitive (f : List Byte → Word) : Prop :=
  ∀ H H' P P' : List Byte, H.length = 12 → H'.length = 12 → P.length = 1000 → P'.length = 1000 →
    DifferInOneByte (H ++ P) (H' ++ P') → f (msgIn H P) ≠ f (msgIn H' P')

end Sys2Proof.Machine
end

