-- ==== Sys2Proof/Certificates/Slice0/Obligations.lean ====
section
/-! DEFINITION. The statements for the provers, one `def Obligations.<Name> : Prop` each. "Answers next" means that
`exec` or `step` gives a next state; an equation with an explicit next state says the result and the frame at once. -/

open Sys2Proof Sys2Proof.Machine

/-! ## Encodings -/

/-- 30_encoding.md R44 to R50: no bit of an operand is lost between encoder and decoder. -/
def Obligations.EncodeThenDecodeGivesTheInstructionBack : Prop :=
  ∀ i : Instr, i.wf = true → decode (encode i) = .ok i

/-- 30_encoding.md R50, R52: a word the decoder accepts is the only word of its instruction. -/
def Obligations.DecodedWordIsTheInstructionsOnlyWord : Prop :=
  ∀ (w : Word64) (i : Instr), decode w = .ok i → i.wf = true ∧ encode i = w

/-- 60_exceptions.md R104 and 30_encoding.md R51, R52: a word is decoded and executed exactly when it is legal; from a
non-fatal state every other word raises IllegalCommand, which sets CAUSE and FATAL and writes nothing else. -/
def Obligations.IllegalWordsRaiseIllegalCommand : Prop :=
  ∀ (s : State) (w : Word64),
    ((∃ i, decode w = .ok i) ↔ LegalWord w) ∧
    (¬ LegalWord w → s.fatal = false → ∃ t, step (s.present w) = .next t ∧
      t = { s with status := t.status, responses := s.responses ++ [⟨.illegalCommand, 0⟩] } ∧
      t.cause = 4 ∧ t.fatal = true)

/-- 20_memory.md R34: RDBUF and WRBUF words whose space or address does not exist are illegal, raise IllegalCommand from
a non-fatal state, and touch no buffer in any state. -/
def Obligations.BufferAddressesAreRangeChecked : Prop :=
  ∀ (s : State) (w : Word64), (opNum w = 0x03 ∨ opNum w = 0x04) →
    ¬ ((aNum w = 0 ∧ bNum w < 1000) ∨ (aNum w = 1 ∧ bNum w < 1016)) →
    (∀ i, decode w ≠ .ok i) ∧
    ∃ t, step (s.present w) = .next t ∧ t.pbuf = s.pbuf ∧ t.wbuf = s.wbuf ∧
      (s.fatal = false → t.responses = s.responses ++ [⟨.illegalCommand, 0⟩] ∧ t.cause = 4 ∧ t.fatal = true)

/-- Eight words built as 30_encoding.md R45 and R46 lay the fields out decode to the commands they stand for. Six of them
are words of 95_test_vectors.md 2.1; the WRBUF and the FSET word are line 15 of its program P2 and line 13 of P5. -/
def Obligations.SampleWordsDecodeToTheirCommands : Prop :=
  decode 0x0107000000000000 = .ok (.rdreg .status) ∧
  decode 0x020100000000FFFF = .ok (.wrreg .ackn 0xFFFF) ∧
  decode 0x030103F700000000 = .ok (.rdbuf .wbuf 1015) ∧
  decode 0x040000090000006C = .ok (.wrbuf .pbuf 9 0x6C) ∧
  decode 0x1200000000000000 = .ok .henc ∧
  decode 0x2003000000000001 = .ok (.fset .name true) ∧
  decode 0x3000FFFF00000000 = .ok (.menc 65535) ∧
  decode 0x3100000000000000 = .ok .mdec

/-! ## Steps -/

/-- 10_state.md R21, 20_memory.md R32: when the word the host presents next decodes to an instruction, the step is
`exec` of it; around `exec` the step only takes the word off the host's inputs (the model's choice of where the host's
words stand is log entry 1). -/
def Obligations.StepExecutesThePresentedCommand : Prop :=
  ∀ (s : State) (w : Word64) (rest : List HostInput) (i : Instr),
    s.pending = .command w :: rest → decode w = .ok i → step s = exec i { s with pending := rest }

/-- With nothing presented a step changes nothing (the model's choice, log entry 1). -/
def Obligations.StepIdlesWhenNothingIsPresented : Prop :=
  ∀ s : State, s.pending = [] → step s = .next s

/-- 70_reset_and_hazards.md R117, R118: a reset event gives every register its reset value from any state, fatal or not;
no buffer byte keeps a value of its own (each reads as the free value of the new contents, log entry 3), a new response
log begins (log entry 2). -/
def Obligations.ResetEventClearsTheBlock : Prop :=
  ∀ (s : State) (n : Nat) (rest : List HostInput), s.pending = .reset n :: rest →
    ∃ t, step s = .next t ∧
      t.seq = 0 ∧ t.ackn = 0 ∧ t.win = 0 ∧ t.flags = 0 ∧ t.dlen = 0 ∧ t.hcsum = 0 ∧ t.mcsum = 0 ∧
      t.status = 0 ∧ (∀ a, t.readByte .pbuf a = Config.resetPbuf n a) ∧
      (∀ a, t.readByte .wbuf a = Config.resetWbuf n a) ∧ t.responses = [] ∧ t.pending = rest ∧
      t.msgSum = s.msgSum

/-- 10_state.md R23: after reset every register is zero, so FATAL and CAUSE are 0; the checksum of ten zero
bytes is 0xFFFF, so HVFY answers 0. -/
def Obligations.RegistersAreZeroAfterReset : Prop :=
  (∀ r : Reg, State.reset.readReg r = 0) ∧ State.reset.fatal = false ∧ State.reset.cause = 0 ∧
    hdrSum (zeros 10) = 0xFFFF ∧ ∃ t, exec .hvfy State.reset = .next t ∧ t.responses = [⟨.ok, 0⟩]

/-- 30_encoding.md R47 and 70_reset_and_hazards.md R129: every command word, legal or not, in every state, is answered
with exactly one response, whose value is 0 when its code is not 0; the host's further inputs, the name of the
unspecified contents and `MsgSum` are left alone. -/
def Obligations.EveryWordIsAnsweredExactlyOnce : Prop :=
  ∀ (s : State) (w : Word64), ∃ t r, step (s.present w) = .next t ∧ t.responses = s.responses ++ [r] ∧
    (r.code ≠ .ok → r.val = 0) ∧ t.pending = s.pending ∧ t.fill = s.fill ∧ t.msgSum = s.msgSum

/-- 30_encoding.md R47, 60_exceptions.md R100: the 64-bit response word has the code's number at bits 63:56, the value at
bits 31:0 and zeros between. -/
def Obligations.ResponseWordLayout : Prop :=
  ∀ r : Response, r.word.toNat = (match r.code with
    | .ok => 0
    | .headerChecksumMismatch => 1
    | .messageChecksumMismatch => 2
    | .payloadTooLarge => 3
    | .illegalCommand => 4
    | .halted => 5) * 2 ^ 56 + r.val.toNat

/-- 20_memory.md R35: the state after commands c1 … cn is the fold of the one-command step over the list, whatever the
host presents after them. -/
def Obligations.RunIsTheFoldOfItsCommands : Prop :=
  ∀ (s : State) (ws : List Word64) (later : List HostInput),
    let t := ws.foldl wordEffect { s with pending := [] }
    Sys2Proof.core.run ws.length { s with pending := ws.map .command ++ later } = .next { t with pending := later }

/-! ## Access commands -/

/-- 40_access.md R60: RDREG answers the register zero-extended, in every state, fatal or not, and changes nothing. -/
def Obligations.RdregAnswersTheRegister : Prop :=
  ∀ (s : State) (r : Reg), ∃ v : Word,
    exec (.rdreg r) s = .next { s with responses := s.responses ++ [⟨.ok, v⟩] } ∧
    v.toNat = (match r with
      | .seq => s.seq.toNat
      | .ackn => s.ackn.toNat
      | .win => s.win.toNat
      | .flags => s.flags.toNat
      | .dlen => s.dlen.toNat
      | .hcsum => s.hcsum.toNat
      | .mcsum => s.mcsum.toNat
      | .status => s.status.toNat)

/-- 40_access.md R61: WRREG of a value that fits writes exactly that register. -/
def Obligations.WrregWritesItsRegisterOnly : Prop :=
  ∀ (s : State) (v : Word), s.fatal = false →
    (exec (.wrreg .seq v) s = .next { s with seq := v, responses := s.responses ++ [⟨.ok, 0⟩] }) ∧
    (v.toNat < 2 ^ 16 →
      exec (.wrreg .ackn v) s =
        .next { s with ackn := BitVec.ofNat 16 v.toNat, responses := s.responses ++ [⟨.ok, 0⟩] } ∧
      exec (.wrreg .win v) s =
        .next { s with win := BitVec.ofNat 16 v.toNat, responses := s.responses ++ [⟨.ok, 0⟩] } ∧
      exec (.wrreg .hcsum v) s =
        .next { s with hcsum := BitVec.ofNat 16 v.toNat, responses := s.responses ++ [⟨.ok, 0⟩] }) ∧
    (v.toNat < 2 ^ 8 →
      exec (.wrreg .flags v) s =
        .next { s with flags := BitVec.ofNat 8 v.toNat, responses := s.responses ++ [⟨.ok, 0⟩] } ∧
      exec (.wrreg .dlen v) s =
        .next { s with dlen := BitVec.ofNat 8 v.toNat, responses := s.responses ++ [⟨.ok, 0⟩] })

/-- 30_encoding.md R52 items 4 and 6 on the instruction: a form of WRREG, RDBUF or WRBUF whose operands do not fit
raises IllegalCommand from a non-fatal state (log entry 6: no word decodes to such a form). -/
def Obligations.IllFormedOperandsRaiseIllegalCommand : Prop :=
  ∀ (s : State) (i : Instr), i.wf = false → s.fatal = false →
    ∃ t, exec i s = .next t ∧
      t = { s with status := t.status, responses := s.responses ++ [⟨.illegalCommand, 0⟩] } ∧
      t.cause = 4 ∧ t.fatal = true

/-- 40_access.md R62: RDBUF of an address the buffer has answers the byte zero-extended, in every state, fatal or not,
and changes nothing. -/
def Obligations.RdbufAnswersTheByte : Prop :=
  ∀ (s : State) (sp : Space) (addr : Half), addr.toNat < (match sp with | .pbuf => 1000 | .wbuf => 1016) →
    exec (.rdbuf sp addr) s =
      .next { s with responses := s.responses ++ [⟨.ok, BitVec.ofNat 32 (s.readByte sp addr.toNat).toNat⟩] }

/-- 40_access.md R63: WRBUF of an address the buffer has writes that byte of that buffer and nothing else. -/
def Obligations.WrbufWritesOneByteOnly : Prop :=
  ∀ (s : State) (sp : Space) (addr : Half) (x : Byte), s.fatal = false →
    addr.toNat < (match sp with | .pbuf => 1000 | .wbuf => 1016) →
    ∃ t, exec (.wrbuf sp addr x) s = .next t ∧
      t = { s with pbuf := t.pbuf, wbuf := t.wbuf, responses := s.responses ++ [⟨.ok, 0⟩] } ∧
      t.readByte sp addr.toNat = x ∧
      ∀ sp' a, ¬ (sp' = sp ∧ a = addr.toNat) → t.readByte sp' a = s.readByte sp' a

/-- 20_memory.md R33: RDBUF and RDREG change nothing, so reading twice with no write between gives one value twice, and
writing the same value twice leaves every register and byte as writing it once. -/
def Obligations.ReadsHaveNoSideEffects : Prop :=
  (∀ (s t : State) (i : Instr), ((∃ r, i = .rdreg r) ∨ ∃ sp addr, i = .rdbuf sp addr ∧ sp.holds addr = true) →
    exec i s = .next t →
      ∃ v, t = { s with responses := s.responses ++ [v] } ∧
        exec i t = .next { s with responses := s.responses ++ [v, v] }) ∧
  (∀ (s t u : State) (i : Instr), ((∃ r v, i = .wrreg r v) ∨ ∃ sp addr x, i = .wrbuf sp addr x) →
    i.wf = true → exec i s = .next t → exec i t = .next u →
      u.header = t.header ∧ u.mcsum = t.mcsum ∧ u.status = t.status ∧
        ∀ sp a, u.readByte sp a = t.readByte sp a)

/-! ## Header codec -/

/-- 41_header_codec.md R66, which the spec marks "from general knowledge, not in source" (log entry 13): `oc_add16` adds
with end-around carry; its algebra. -/
def Obligations.OnesComplementAdditionLaws : Prop :=
  ∀ s w u : Half,
    (ocAdd16 s w).toNat = (if s.toNat + w.toNat ≤ 0xFFFF then s.toNat + w.toNat else s.toNat + w.toNat - 0xFFFF) ∧
    ocAdd16 s w = ocAdd16 w s ∧ ocAdd16 (ocAdd16 s w) u = ocAdd16 s (ocAdd16 w u) ∧
    ocAdd16 s 0 = s ∧ (s ≠ 0 → ocAdd16 s 0xFFFF = s) ∧ ocAdd16 0 0xFFFF = 0xFFFF

/-- 41_header_codec.md R67, R68, which rest on what the spec marks "from general knowledge, not in source" (log entry
13): `HdrSum` in terms of the plain sum `T` of the five words; when it is 0; that the order
of the words does not matter; that only the ten bytes enter. -/
def Obligations.HeaderSumIsTheComplementOfTheFoldedSum : Prop :=
  ∀ B B' : List Byte,
    let T := ((List.range 5).map fun i => (byteAt B (2 * i)).toNat * 256 + (byteAt B (2 * i + 1)).toNat).sum
    (hdrSum B).toNat = 0xFFFF - (if T = 0 then 0 else (T - 1) % 65535 + 1) ∧
    (hdrSum B = 0 ↔ 0 < T ∧ 65535 ∣ T) ∧
    (T = 0 → hdrSum B = 0xFFFF) ∧
    (((List.range 5).map (hdrWord B)).Perm ((List.range 5).map (hdrWord B')) → hdrSum B' = hdrSum B) ∧
    ((∀ i < 10, byteAt B' i = byteAt B i) → hdrSum B' = hdrSum B)

/-- 41_header_codec.md R75 (its first and second sentences): one changed byte always changes `HdrSum`; two may not. -/
def Obligations.OneChangedByteChangesTheHeaderSum : Prop :=
  (∀ B B' : List Byte, B.length = 10 → B'.length = 10 → DifferInOneByte B B' → hdrSum B ≠ hdrSum B') ∧
  hdrSum [0x00, 0x01, 0, 0, 0, 0, 0, 0, 0, 0] = hdrSum [0x00, 0x01, 0xFF, 0xFF, 0, 0, 0, 0, 0, 0]

/-- 41_header_codec.md R70: HCSM stores and answers the complement of the ones'-complement sum of SEQ[31:16], SEQ[15:0],
ACKN, WIN and FLAGS·256 + DLEN; the old HCSUM does not enter; nothing else changes. -/
def Obligations.HcsmStoresTheComputedChecksum : Prop :=
  ∀ s : State, s.fatal = false →
    let c : Half := ~~~ ([BitVec.ofNat 16 (s.seq.toNat / 65536), BitVec.ofNat 16 s.seq.toNat, s.ackn, s.win,
      BitVec.ofNat 16 (s.flags.toNat * 256 + s.dlen.toNat)].foldl ocAdd16 0)
    exec .hcsm s =
      .next { s with hcsum := c, responses := s.responses ++ [⟨.ok, BitVec.ofNat 32 c.toNat⟩] }

/-- 41_header_codec.md R71: HVFY answers 1 exactly when the stored checksum equals the recomputed one, and changes
nothing. -/
def Obligations.HvfyComparesStoredWithRecomputed : Prop :=
  ∀ s : State, s.fatal = false →
    exec .hvfy s = .next { s with responses := s.responses ++
      [⟨.ok, if s.hcsum = hdrSum ((hdrBytes s.header).take 10) then 1 else 0⟩] }

/-- 41_header_codec.md R70, 43_message_codec.md R90: after HCSM, and after a successful MENC, HVFY answers 1. -/
def Obligations.ComputedHeaderVerifies : Prop :=
  ∀ (s t : State) (i : Instr), s.fatal = false →
    (i = .hcsm ∨ ∃ plen : Half, plen.toNat ≤ 255 ∧ i = .menc plen) → exec i s = .next t →
    exec .hvfy t = .next { t with responses := t.responses ++ [⟨.ok, 1⟩] }

/-- 41_header_codec.md R72, 20_memory.md R28, 30_encoding.md R40: HENC writes WBUF[0..11] with the six registers
big-endian in table order, HCSUM as stored, and nothing else. -/
def Obligations.HencPacksTheRegistersBigEndian : Prop :=
  ∀ s : State, s.fatal = false → ∃ t, exec .henc s = .next t ∧
    t = { s with wbuf := t.wbuf, responses := s.responses ++ [⟨.ok, 0⟩] } ∧
    (t.readByte .wbuf 0).toNat = s.seq.toNat / 2 ^ 24 ∧
    (t.readByte .wbuf 1).toNat = s.seq.toNat / 2 ^ 16 % 256 ∧
    (t.readByte .wbuf 2).toNat = s.seq.toNat / 2 ^ 8 % 256 ∧
    (t.readByte .wbuf 3).toNat = s.seq.toNat % 256 ∧
    (t.readByte .wbuf 4).toNat = s.ackn.toNat / 2 ^ 8 ∧
    (t.readByte .wbuf 5).toNat = s.ackn.toNat % 256 ∧
    (t.readByte .wbuf 6).toNat = s.win.toNat / 2 ^ 8 ∧
    (t.readByte .wbuf 7).toNat = s.win.toNat % 256 ∧
    t.readByte .wbuf 8 = s.flags ∧
    t.readByte .wbuf 9 = s.dlen ∧
    (t.readByte .wbuf 10).toNat = s.hcsum.toNat / 2 ^ 8 ∧
    (t.readByte .wbuf 11).toNat = s.hcsum.toNat % 256 ∧
    ∀ a, 12 ≤ a → t.readByte .wbuf a = s.readByte .wbuf a

/-- 41_header_codec.md R73: HDEC unpacks WBUF[0..11] into registers 0 to 5 whatever the bytes are, without validation,
and changes nothing else. -/
def Obligations.HdecUnpacksWithoutValidation : Prop :=
  ∀ s : State, s.fatal = false →
    let b : Nat → Nat := fun a => (s.readByte .wbuf a).toNat
    exec .hdec s = .next { s with
      seq := BitVec.ofNat 32 (b 0 * 2 ^ 24 + b 1 * 2 ^ 16 + b 2 * 2 ^ 8 + b 3)
      ackn := BitVec.ofNat 16 (b 4 * 256 + b 5)
      win := BitVec.ofNat 16 (b 6 * 256 + b 7)
      flags := s.readByte .wbuf 8
      dlen := s.readByte .wbuf 9
      hcsum := BitVec.ofNat 16 (b 10 * 256 + b 11)
      responses := s.responses ++ [⟨.ok, 0⟩] }

/-- 41_header_codec.md R74: `HdrFields` and `HdrBytes` are inverse to each other; in commands, HENC then HDEC leaves
registers 0 to 5 as they were, and HDEC then HENC leaves WBUF[0..11] as it was. -/
def Obligations.HeaderEncodingRoundTrips : Prop :=
  (∀ h : Header, hdrFields (hdrBytes h) = h) ∧
  (∀ B : List Byte, B.length = 12 → hdrBytes (hdrFields B) = B) ∧
  (∀ s : State, s.fatal = false → ∃ t u, exec .henc s = .next t ∧ exec .hdec t = .next u ∧
    u.header = s.header) ∧
  (∀ s : State, s.fatal = false → ∃ t u, exec .hdec s = .next t ∧ exec .henc t = .next u ∧
    ∀ a < 12, u.readByte .wbuf a = s.readByte .wbuf a)

/-! ## Flags -/

/-- 42_flags.md R81: FSET writes one bit of FLAGS, all other bits preserved, and nothing else. -/
def Obligations.FsetWritesOneBitOfFlags : Prop :=
  ∀ (s : State) (f : Flag) (v : Bool), s.fatal = false → ∃ x : Byte,
    exec (.fset f v) s = .next { s with flags := x, responses := s.responses ++ [⟨.ok, 0⟩] } ∧
    ∀ k, x.getLsbD k =
      if k = (match f with | .syn => 0 | .ack => 1 | .fin => 2 | .name => 3) then v else s.flags.getLsbD k

/-- 42_flags.md R82: FGET answers one bit of FLAGS and changes nothing. -/
def Obligations.FgetAnswersOneBitOfFlags : Prop :=
  ∀ (s : State) (f : Flag), s.fatal = false →
    exec (.fget f) s = .next { s with responses := s.responses ++
      [⟨.ok, BitVec.ofNat 32 (s.flags.toNat / 2 ^ (match f with | .syn => 0 | .ack => 1 | .fin => 2 | .name => 3) % 2)⟩] }

/-- 42_flags.md R83, 90_conflicts.md C4: NOFLG answers 1 exactly when all eight bits of FLAGS are zero, and changes
nothing. -/
def Obligations.NoflgTestsTheWholeFlagsByte : Prop :=
  ∀ s : State, s.fatal = false →
    exec .noflg s = .next { s with responses := s.responses ++
      [⟨.ok, if s.flags.toNat = 0 then 1 else 0⟩] }

/-- 42_flags.md R84: after FSET i, v, FGET i answers v, FGET j answers as before for every other j, and FLAGS[7:4] is
unchanged; when FLAGS[7:4] is 0, NOFLG answers 1 iff all four FGET answer 0; the sixteen values 0x00 to 0x0F are
exactly the subsets of the four flags. -/
def Obligations.FlagAlgebra : Prop :=
  (∀ (s : State) (i j : Flag) (v : Bool), s.fatal = false →
    ∃ t a b, exec (.fset i v) s = .next t ∧
      exec (.fget i) t = .next { t with responses := t.responses ++ [⟨.ok, if v then 1 else 0⟩] } ∧
      (j ≠ i → exec (.fget j) s = .next { s with responses := s.responses ++ [⟨.ok, a⟩] } ∧
        exec (.fget j) t = .next { t with responses := t.responses ++ [⟨.ok, b⟩] } ∧ b = a) ∧
      t.flags.extractLsb' 4 4 = s.flags.extractLsb' 4 4 ∧
      (t.flags ^^^ s.flags = 0 ∨
        t.flags ^^^ s.flags = 1#8 <<< (match i with | .syn => 0 | .ack => 1 | .fin => 2 | .name => 3))) ∧
  (∀ s : State, s.fatal = false → s.flags.extractLsb' 4 4 = 0 →
    (exec .noflg s = .next { s with responses := s.responses ++ [⟨.ok, 1⟩] } ↔
      ∀ f : Flag, exec (.fget f) s = .next { s with responses := s.responses ++ [⟨.ok, 0⟩] })) ∧
  (∀ on : Flag → Bool, ∃ x : Byte, x.toNat < 16 ∧ (∀ f, getFlag x f = on f) ∧
    ∀ y : Byte, y.toNat < 16 → (∀ f, getFlag y f = on f) → y = x)

/-! ## Message codec -/

/-- 43_message_codec.md R90, R92: MENC of a length up to 255 writes exactly the 1016 bytes of WBUF (header with
`data_length` = plen and the computed checksum, message checksum over the zero-field image, payload, zero padding), and
DLEN, HCSUM and MCSUM with what it emits; nothing else changes. It holds for every `MsgSum`. -/
def Obligations.MencWritesTheFrame : Prop :=
  ∀ (s : State) (plen : Half), s.fatal = false → plen.toNat ≤ 255 →
    ∃ t, exec (.menc plen) s = .next t ∧
      t = { s with dlen := t.dlen, hcsum := t.hcsum, mcsum := t.mcsum, wbuf := t.wbuf,
                   responses := s.responses ++ [⟨.ok, 0⟩] } ∧
      t.dlen.toNat = plen.toNat ∧
      t.hcsum = hdrSum ((hdrBytes t.header).take 10) ∧
      t.mcsum = msgSumOf s.msgSum (msgIn (hdrBytes t.header)
        (s.memRead .pbuf 0 plen.toNat ++ zeros (1000 - plen.toNat))) ∧
      t.memRead .wbuf 0 12 = hdrBytes t.header ∧
      t.memRead .wbuf 12 4 = be32 t.mcsum ∧
      (∀ k < plen.toNat, t.readByte .wbuf (16 + k) = s.readByte .pbuf k) ∧
      (∀ k, plen.toNat ≤ k → k < 1000 → t.readByte .wbuf (16 + k) = 0) ∧
      Written t .wbuf 0 1016 ∧
      ∀ a, 1016 ≤ a → t.readByte .wbuf a = s.readByte .wbuf a

/-- 60_exceptions.md R103: MENC of a length above 255 raises PayloadTooLarge, a fatal error that writes nothing but
STATUS. -/
def Obligations.MencRefusesLongPayloads : Prop :=
  ∀ (s : State) (plen : Half), s.fatal = false → 255 < plen.toNat →
    ∃ t, exec (.menc plen) s = .next t ∧
      t = { s with status := t.status, responses := s.responses ++ [⟨.payloadTooLarge, 0⟩] } ∧
      t.cause = 3 ∧ t.fatal = true

/-- 43_message_codec.md R91: when both checks pass, MDEC loads registers 0 to 6 from WBUF[0..15] and PBUF from
WBUF[16..1015], and changes nothing else; nothing but the two checksums is checked. -/
def Obligations.MdecLoadsAValidFrame : Prop :=
  ∀ s : State, s.fatal = false → WireHeaderValid s → WireMessageValid s →
    ∃ t, exec .mdec s = .next t ∧
      t = { s with seq := t.seq, ackn := t.ackn, win := t.win, flags := t.flags, dlen := t.dlen,
                   hcsum := t.hcsum, mcsum := t.mcsum, pbuf := t.pbuf,
                   responses := s.responses ++ [⟨.ok, 0⟩] } ∧
      hdrBytes t.header = s.memRead .wbuf 0 12 ∧
      be32 t.mcsum = s.memRead .wbuf 12 4 ∧
      (∀ k < 1000, t.readByte .pbuf k = s.readByte .wbuf (16 + k)) ∧
      ∀ a, 1000 ≤ a → t.readByte .pbuf a = s.readByte .pbuf a

/-- 60_exceptions.md R101, R102: MDEC of a frame whose header checksum is wrong raises HeaderChecksumMismatch; of one
whose header checksum is right and whose message checksum is wrong, MessageChecksumMismatch. Both write nothing but
STATUS, where CAUSE takes the code and FATAL stays 0. -/
def Obligations.MdecRejectsBadFrames : Prop :=
  ∀ s : State, s.fatal = false → ¬ (WireHeaderValid s ∧ WireMessageValid s) →
    ∃ t k, exec .mdec s = .next t ∧
      t = { s with status := t.status, responses := s.responses ++ [⟨k, 0⟩] } ∧ t.fatal = false ∧
      (¬ WireHeaderValid s → k = .headerChecksumMismatch ∧ t.cause = 1) ∧
      (WireHeaderValid s → k = .messageChecksumMismatch ∧ t.cause = 2)

/-- 43_message_codec.md R93: MENC then MDEC gives two OK responses, restores what MENC used, and leaves PBUF[plen..999]
zero and WBUF as MENC left it. It holds for every `MsgSum`. -/
def Obligations.MencThenMdecRoundTrips : Prop :=
  ∀ (s : State) (plen : Half), s.fatal = false → plen.toNat ≤ 255 →
    ∃ t u, exec (.menc plen) s = .next t ∧ exec .mdec t = .next u ∧
      u.responses = s.responses ++ [⟨.ok, 0⟩, ⟨.ok, 0⟩] ∧
      u.seq = s.seq ∧ u.ackn = s.ackn ∧ u.win = s.win ∧ u.flags = s.flags ∧
      u.dlen.toNat = plen.toNat ∧ u.hcsum = t.hcsum ∧ u.mcsum = t.mcsum ∧
      (∀ k < plen.toNat, u.readByte .pbuf k = s.readByte .pbuf k) ∧
      (∀ k, plen.toNat ≤ k → k < 1000 → u.readByte .pbuf k = 0) ∧ u.wbuf = t.wbuf

/-- 43_message_codec.md R94: after a successful MENC, changing any one of the 1016 bytes to a different value makes MDEC
fail: bytes 0 to 11 with HeaderChecksumMismatch and 12 to 15 with MessageChecksumMismatch for every `MsgSum`, bytes 16
to 1015 with MessageChecksumMismatch for every `MsgSum` that is MsgSumByteSensitive, as the default is. -/
def Obligations.AnyChangedByteOfAFrameIsDetected : Prop :=
  ∀ (s t : State) (plen : Half) (a : Nat) (x : Byte), s.fatal = false → plen.toNat ≤ 255 →
    exec (.menc plen) s = .next t → a < 1016 → x ≠ t.readByte .wbuf a →
    ∃ u r, exec .mdec (t.memWrite .wbuf a [x]) = .next u ∧ u.responses = t.responses ++ [r] ∧
      (a < 12 → r = ⟨.headerChecksumMismatch, 0⟩) ∧
      (12 ≤ a → a < 16 → r = ⟨.messageChecksumMismatch, 0⟩) ∧
      (16 ≤ a → (MsgSumByteSensitive (msgSumOf s.msgSum) ∨ s.msgSum = .crc32) →
        r = ⟨.messageChecksumMismatch, 0⟩)

/-- 43_message_codec.md R89 (its bounded-burst guarantee; the rule is marked "from general knowledge, not in source"): CRC-32 tells apart any two sequences of one length that
differ only within four consecutive bytes. -/
def Obligations.CrcDetectsEveryFourByteBurst : Prop :=
  ∀ A X Y B : List Byte, X.length = Y.length → X.length ≤ 4 → X ≠ Y → crc32 (A ++ X ++ B) ≠ crc32 (A ++ Y ++ B)

/-- 43_message_codec.md R89 (its first sentence, first half; the rule is marked "from general knowledge, not in source"): for sequences of one length the exclusive-or of two CRCs
depends only on the bytewise exclusive-or of the sequences. -/
def Obligations.CrcDifferenceDependsOnTheByteDifference : Prop :=
  ∀ A B A' B' : List Byte, A.length = B.length → A'.length = B'.length →
    List.zipWith (· ^^^ ·) A B = List.zipWith (· ^^^ ·) A' B' → crc32 A ^^^ crc32 B = crc32 A' ^^^ crc32 B'

/-- 43_message_codec.md R87, R89 (the latter marked "from general knowledge, not in source"): the default `MsgSum` has the property MsgSumByteSensitive. -/
def Obligations.DefaultMsgSumIsByteSensitive : Prop :=
  MsgSumByteSensitive (msgSumOf .crc32)

/-! ## Errors -/

/-- 60_exceptions.md R105: a block with FATAL = 1 executes only legal RDREG and RDBUF, which change nothing; every other
word, legal or not, is answered 5/0 and changes nothing, not even STATUS; of all the host can do only reset leaves this
condition. -/
def Obligations.HaltedBlockOnlyReads : Prop :=
  ∀ s : State, s.fatal = true →
    (∀ (w : Word64) (r : Reg), decode w = .ok (.rdreg r) →
      step (s.present w) = .next { s with responses := s.responses ++ [⟨.ok, s.readReg r⟩] }) ∧
    (∀ (w : Word64) (sp : Space) (addr : Half), decode w = .ok (.rdbuf sp addr) →
      step (s.present w) = .next { s with responses := s.responses ++
        [⟨.ok, BitVec.ofNat 32 (s.readByte sp addr.toNat).toNat⟩] }) ∧
    (∀ w : Word64, (∀ r, decode w ≠ .ok (.rdreg r)) → (∀ sp addr, decode w ≠ .ok (.rdbuf sp addr)) →
      step (s.present w) = .next { s with responses := s.responses ++ [⟨.halted, 0⟩] }) ∧
    (∀ t, step s = .next t → (t.fatal = false ↔ ∃ n rest, s.pending = .reset n :: rest))

/-- 60_exceptions.md R101, R102, R103, R108: which error a word processed by a non-fatal block ends with. A legal word
ends with PayloadTooLarge iff it is MENC with plen above 255, with HeaderChecksumMismatch iff it is MDEC on a wrong header
checksum, with MessageChecksumMismatch iff it is MDEC on a right header checksum and a wrong message checksum, and
otherwise with OK; no word is answered Halted. -/
def Obligations.ErrorsAreRaisedExactlyWhenTheirCauseHolds : Prop :=
  ∀ (s : State) (w : Word64), s.fatal = false →
    ∃ t r, step (s.present w) = .next t ∧ t.responses = s.responses ++ [r] ∧
      (r.code = .illegalCommand ↔ ¬ LegalWord w) ∧
      (r.code = .payloadTooLarge ↔ LegalWord w ∧ opNum w = 0x30 ∧ 255 < bNum w) ∧
      (r.code = .headerChecksumMismatch ↔ LegalWord w ∧ opNum w = 0x31 ∧ ¬ WireHeaderValid s) ∧
      (r.code = .messageChecksumMismatch ↔
        LegalWord w ∧ opNum w = 0x31 ∧ WireHeaderValid s ∧ ¬ WireMessageValid s) ∧
      r.code ≠ .halted

/-- 60_exceptions.md R109, R110; 10_state.md R17: whatever word is processed in whatever state, a response of code 1 or 2
means that CAUSE took the code, that FATAL was and stays 0 and that nothing else was written, one of code 3 or 4 that in
addition FATAL is 1, and one of code 0 or 5 that STATUS is as it was. -/
def Obligations.ErrorsWriteStatusOnly : Prop :=
  ∀ (s t : State) (w : Word64) (r : Response), step (s.present w) = .next t → t.responses = s.responses ++ [r] →
    ((r.code = .headerChecksumMismatch ∨ r.code = .messageChecksumMismatch) →
      t = { s with status := t.status, responses := s.responses ++ [⟨r.code, 0⟩] } ∧
      t.cause.toNat = r.code.num.toNat ∧ s.fatal = false ∧ t.fatal = false) ∧
    ((r.code = .payloadTooLarge ∨ r.code = .illegalCommand) →
      t = { s with status := t.status, responses := s.responses ++ [⟨r.code, 0⟩] } ∧
      t.cause.toNat = r.code.num.toNat ∧ t.fatal = true) ∧
    ((r.code = .ok ∨ r.code = .halted) → t.status = s.status)

/-! ## Invariants and isolation -/

/-- 10_state.md R16, R17, R18, R19: from every state with well-formed buffers and a legal STATUS every step, whatever the
host does, gives such a state. -/
def Obligations.StepKeepsBuffersAndStatusLegal : Prop :=
  ∀ s t : State, BlockInv s → step s = .next t → BlockInv t

/-- 70_reset_and_hazards.md R130, 10_state.md R16, 30_encoding.md R47: every step keeps that FATAL is 1 iff the run has
gone wrong, that CAUSE is the last error's code and that only OK responses carry a value. (The response log and its
clearing by a reset event are the model's, log entry 2.) -/
def Obligations.StepKeepsStatusTrueToTheRun : Prop :=
  ∀ s t : State, RunInv s → step s = .next t → RunInv t

/-- The reset state meets both invariants. -/
def Obligations.ResetMeetsTheInvariants : Prop :=
  BlockInv State.reset ∧ RunInv State.reset

/-- 10_state.md R24, 70_reset_and_hazards.md R120, R121: when the host has kept the duty of a command, its result does not
depend on the unspecified reset contents of the buffers. -/
def Obligations.UnspecifiedBytesDoNotEnterADutifulCommand : Prop :=
  ∀ (i : Instr) (s : State) (n : Nat), CommandDuty i s →
    ∃ t, exec i s = .next t ∧ exec i { s with fill := n } = .next { t with fill := n }

/-- 60_exceptions.md R115, 40_access.md R61: no WRREG, WRBUF, HCSM, HVFY, HENC, HDEC, FSET, FGET or NOFLG changes MCSUM,
and of the commands only those named in the "written also by" column of 10_state.md R10 write a register: PBUF is written
only by WRBUF and MDEC, WBUF only by WRBUF, HENC and MENC. -/
def Obligations.OnlyTheNamedCommandsWrite : Prop :=
  ∀ (i : Instr) (s t : State), exec i s = .next t →
    (t.mcsum ≠ s.mcsum → (∃ p, i = .menc p) ∨ i = .mdec) ∧
    (t.seq ≠ s.seq → (∃ v, i = .wrreg .seq v) ∨ i = .hdec ∨ i = .mdec) ∧
    (t.ackn ≠ s.ackn → (∃ v, i = .wrreg .ackn v) ∨ i = .hdec ∨ i = .mdec) ∧
    (t.win ≠ s.win → (∃ v, i = .wrreg .win v) ∨ i = .hdec ∨ i = .mdec) ∧
    (t.flags ≠ s.flags → (∃ v, i = .wrreg .flags v) ∨ (∃ f v, i = .fset f v) ∨ i = .hdec ∨ i = .mdec) ∧
    (t.dlen ≠ s.dlen → (∃ v, i = .wrreg .dlen v) ∨ (∃ p, i = .menc p) ∨ i = .hdec ∨ i = .mdec) ∧
    (t.hcsum ≠ s.hcsum →
      (∃ v, i = .wrreg .hcsum v) ∨ i = .hcsm ∨ (∃ p, i = .menc p) ∨ i = .hdec ∨ i = .mdec) ∧
    (t.pbuf ≠ s.pbuf → (∃ a x, i = .wrbuf .pbuf a x) ∨ i = .mdec) ∧
    (t.wbuf ≠ s.wbuf → (∃ a x, i = .wrbuf .wbuf a x) ∨ i = .henc ∨ ∃ p, i = .menc p)
end

