-- ==== Sys2Proof/Laws/State.lean ====
section
/-! SUPPORT. One lemma per field per update of the state, true by unfolding once, so that no proof unfolds a record
update again. -/

namespace Sys2Proof.Machine

/-! ## The fixed constants (00_scope.md R4) -/

@[simp] theorem hdrLen_eq : Config.hdrLen = 12 := rfl
@[simp] theorem hdrCover_eq : Config.hdrCover = 10 := rfl
@[simp] theorem mckLen_eq : Config.mckLen = 4 := rfl
@[simp] theorem payOff_eq : Config.payOff = 16 := rfl
@[simp] theorem payLen_eq : Config.payLen = 1000 := rfl
@[simp] theorem msgLen_eq : Config.msgLen = 1016 := rfl
@[simp] theorem dlenMax_eq : Config.dlenMax = 255 := rfl

/-! ## State.answer, State.respond, State.refuseHalted -/

@[simp] theorem State.answer_seq (s : State) (r : Response) : (s.answer r).seq = s.seq := rfl
@[simp] theorem State.answer_ackn (s : State) (r : Response) : (s.answer r).ackn = s.ackn := rfl
@[simp] theorem State.answer_win (s : State) (r : Response) : (s.answer r).win = s.win := rfl
@[simp] theorem State.answer_flags (s : State) (r : Response) : (s.answer r).flags = s.flags := rfl
@[simp] theorem State.answer_dlen (s : State) (r : Response) : (s.answer r).dlen = s.dlen := rfl
@[simp] theorem State.answer_hcsum (s : State) (r : Response) : (s.answer r).hcsum = s.hcsum := rfl
@[simp] theorem State.answer_mcsum (s : State) (r : Response) : (s.answer r).mcsum = s.mcsum := rfl
@[simp] theorem State.answer_status (s : State) (r : Response) : (s.answer r).status = s.status := rfl
@[simp] theorem State.answer_pbuf (s : State) (r : Response) : (s.answer r).pbuf = s.pbuf := rfl
@[simp] theorem State.answer_wbuf (s : State) (r : Response) : (s.answer r).wbuf = s.wbuf := rfl
@[simp] theorem State.answer_pending (s : State) (r : Response) : (s.answer r).pending = s.pending := rfl
@[simp] theorem State.answer_responses (s : State) (r : Response) : (s.answer r).responses = s.responses ++ [r] := rfl
@[simp] theorem State.answer_fill (s : State) (r : Response) : (s.answer r).fill = s.fill := rfl
@[simp] theorem State.answer_msgSum (s : State) (r : Response) : (s.answer r).msgSum = s.msgSum := rfl

@[simp] theorem State.respond_seq (s : State) (v : Word) : (s.respond v).seq = s.seq := rfl
@[simp] theorem State.respond_ackn (s : State) (v : Word) : (s.respond v).ackn = s.ackn := rfl
@[simp] theorem State.respond_win (s : State) (v : Word) : (s.respond v).win = s.win := rfl
@[simp] theorem State.respond_flags (s : State) (v : Word) : (s.respond v).flags = s.flags := rfl
@[simp] theorem State.respond_dlen (s : State) (v : Word) : (s.respond v).dlen = s.dlen := rfl
@[simp] theorem State.respond_hcsum (s : State) (v : Word) : (s.respond v).hcsum = s.hcsum := rfl
@[simp] theorem State.respond_mcsum (s : State) (v : Word) : (s.respond v).mcsum = s.mcsum := rfl
@[simp] theorem State.respond_status (s : State) (v : Word) : (s.respond v).status = s.status := rfl
@[simp] theorem State.respond_pbuf (s : State) (v : Word) : (s.respond v).pbuf = s.pbuf := rfl
@[simp] theorem State.respond_wbuf (s : State) (v : Word) : (s.respond v).wbuf = s.wbuf := rfl
@[simp] theorem State.respond_pending (s : State) (v : Word) : (s.respond v).pending = s.pending := rfl
@[simp] theorem State.respond_responses (s : State) (v : Word) : (s.respond v).responses = s.responses ++ [⟨.ok, v⟩] := rfl
@[simp] theorem State.respond_fill (s : State) (v : Word) : (s.respond v).fill = s.fill := rfl
@[simp] theorem State.respond_msgSum (s : State) (v : Word) : (s.respond v).msgSum = s.msgSum := rfl

@[simp] theorem State.refuseHalted_seq (s : State) : (s.refuseHalted).seq = s.seq := rfl
@[simp] theorem State.refuseHalted_ackn (s : State) : (s.refuseHalted).ackn = s.ackn := rfl
@[simp] theorem State.refuseHalted_win (s : State) : (s.refuseHalted).win = s.win := rfl
@[simp] theorem State.refuseHalted_flags (s : State) : (s.refuseHalted).flags = s.flags := rfl
@[simp] theorem State.refuseHalted_dlen (s : State) : (s.refuseHalted).dlen = s.dlen := rfl
@[simp] theorem State.refuseHalted_hcsum (s : State) : (s.refuseHalted).hcsum = s.hcsum := rfl
@[simp] theorem State.refuseHalted_mcsum (s : State) : (s.refuseHalted).mcsum = s.mcsum := rfl
@[simp] theorem State.refuseHalted_status (s : State) : (s.refuseHalted).status = s.status := rfl
@[simp] theorem State.refuseHalted_pbuf (s : State) : (s.refuseHalted).pbuf = s.pbuf := rfl
@[simp] theorem State.refuseHalted_wbuf (s : State) : (s.refuseHalted).wbuf = s.wbuf := rfl
@[simp] theorem State.refuseHalted_pending (s : State) : (s.refuseHalted).pending = s.pending := rfl
@[simp] theorem State.refuseHalted_responses (s : State) : (s.refuseHalted).responses = s.responses ++ [⟨.halted, 0⟩] := rfl
@[simp] theorem State.refuseHalted_fill (s : State) : (s.refuseHalted).fill = s.fill := rfl
@[simp] theorem State.refuseHalted_msgSum (s : State) : (s.refuseHalted).msgSum = s.msgSum := rfl

@[simp] theorem State.answer_fatal (s : State) (r : Response) : (s.answer r).fatal = s.fatal := rfl
@[simp] theorem State.answer_cause (s : State) (r : Response) : (s.answer r).cause = s.cause := rfl
@[simp] theorem State.respond_fatal (s : State) (v : Word) : (s.respond v).fatal = s.fatal := rfl
@[simp] theorem State.respond_cause (s : State) (v : Word) : (s.respond v).cause = s.cause := rfl
@[simp] theorem State.refuseHalted_fatal (s : State) : s.refuseHalted.fatal = s.fatal := rfl
@[simp] theorem State.refuseHalted_cause (s : State) : s.refuseHalted.cause = s.cause := rfl
@[simp] theorem State.resetEvent_fatal (s : State) (n : Nat) : (s.resetEvent n).fatal = false := show fatalBit 0 = false by decide
@[simp] theorem State.resetEvent_cause (s : State) (n : Nat) : (s.resetEvent n).cause = 0 := show causeField 0 = 0 by decide

/-! ## State.raise -/

@[simp] theorem State.raise_seq (s : State) (k : ErrorKind) : (s.raise k).seq = s.seq := rfl
@[simp] theorem State.raise_ackn (s : State) (k : ErrorKind) : (s.raise k).ackn = s.ackn := rfl
@[simp] theorem State.raise_win (s : State) (k : ErrorKind) : (s.raise k).win = s.win := rfl
@[simp] theorem State.raise_flags (s : State) (k : ErrorKind) : (s.raise k).flags = s.flags := rfl
@[simp] theorem State.raise_dlen (s : State) (k : ErrorKind) : (s.raise k).dlen = s.dlen := rfl
@[simp] theorem State.raise_hcsum (s : State) (k : ErrorKind) : (s.raise k).hcsum = s.hcsum := rfl
@[simp] theorem State.raise_mcsum (s : State) (k : ErrorKind) : (s.raise k).mcsum = s.mcsum := rfl
@[simp] theorem State.raise_status (s : State) (k : ErrorKind) : (s.raise k).status = statusAfter s.status k := rfl
@[simp] theorem State.raise_pbuf (s : State) (k : ErrorKind) : (s.raise k).pbuf = s.pbuf := rfl
@[simp] theorem State.raise_wbuf (s : State) (k : ErrorKind) : (s.raise k).wbuf = s.wbuf := rfl
@[simp] theorem State.raise_pending (s : State) (k : ErrorKind) : (s.raise k).pending = s.pending := rfl
@[simp] theorem State.raise_responses (s : State) (k : ErrorKind) : (s.raise k).responses = s.responses ++ [⟨k.code, 0⟩] := rfl
@[simp] theorem State.raise_fill (s : State) (k : ErrorKind) : (s.raise k).fill = s.fill := rfl
@[simp] theorem State.raise_msgSum (s : State) (k : ErrorKind) : (s.raise k).msgSum = s.msgSum := rfl

/-! ## State.setHeader, State.header -/

@[simp] theorem State.setHeader_seq (s : State) (h : Header) : (s.setHeader h).seq = h.seq := rfl
@[simp] theorem State.setHeader_ackn (s : State) (h : Header) : (s.setHeader h).ackn = h.ackn := rfl
@[simp] theorem State.setHeader_win (s : State) (h : Header) : (s.setHeader h).win = h.win := rfl
@[simp] theorem State.setHeader_flags (s : State) (h : Header) : (s.setHeader h).flags = h.flags := rfl
@[simp] theorem State.setHeader_dlen (s : State) (h : Header) : (s.setHeader h).dlen = h.dlen := rfl
@[simp] theorem State.setHeader_hcsum (s : State) (h : Header) : (s.setHeader h).hcsum = h.hcsum := rfl
@[simp] theorem State.setHeader_mcsum (s : State) (h : Header) : (s.setHeader h).mcsum = s.mcsum := rfl
@[simp] theorem State.setHeader_status (s : State) (h : Header) : (s.setHeader h).status = s.status := rfl
@[simp] theorem State.setHeader_pbuf (s : State) (h : Header) : (s.setHeader h).pbuf = s.pbuf := rfl
@[simp] theorem State.setHeader_wbuf (s : State) (h : Header) : (s.setHeader h).wbuf = s.wbuf := rfl
@[simp] theorem State.setHeader_pending (s : State) (h : Header) : (s.setHeader h).pending = s.pending := rfl
@[simp] theorem State.setHeader_responses (s : State) (h : Header) : (s.setHeader h).responses = s.responses := rfl
@[simp] theorem State.setHeader_fill (s : State) (h : Header) : (s.setHeader h).fill = s.fill := rfl
@[simp] theorem State.setHeader_msgSum (s : State) (h : Header) : (s.setHeader h).msgSum = s.msgSum := rfl
@[simp] theorem State.header_seq (s : State) : s.header.seq = s.seq := rfl
@[simp] theorem State.header_ackn (s : State) : s.header.ackn = s.ackn := rfl
@[simp] theorem State.header_win (s : State) : s.header.win = s.win := rfl
@[simp] theorem State.header_flags (s : State) : s.header.flags = s.flags := rfl
@[simp] theorem State.header_dlen (s : State) : s.header.dlen = s.dlen := rfl
@[simp] theorem State.header_hcsum (s : State) : s.header.hcsum = s.hcsum := rfl
@[simp] theorem State.header_setHeader (s : State) (h : Header) : (s.setHeader h).header = h := rfl

/-! ## State.writeReg: fields no WRREG writes -/

@[simp] theorem State.writeReg_mcsum (s : State) (r : HdrReg) (v : Word) : (s.writeReg r v).mcsum = s.mcsum := by cases r <;> rfl
@[simp] theorem State.writeReg_status (s : State) (r : HdrReg) (v : Word) : (s.writeReg r v).status = s.status := by cases r <;> rfl
@[simp] theorem State.writeReg_pbuf (s : State) (r : HdrReg) (v : Word) : (s.writeReg r v).pbuf = s.pbuf := by cases r <;> rfl
@[simp] theorem State.writeReg_wbuf (s : State) (r : HdrReg) (v : Word) : (s.writeReg r v).wbuf = s.wbuf := by cases r <;> rfl
@[simp] theorem State.writeReg_pending (s : State) (r : HdrReg) (v : Word) : (s.writeReg r v).pending = s.pending := by cases r <;> rfl
@[simp] theorem State.writeReg_responses (s : State) (r : HdrReg) (v : Word) : (s.writeReg r v).responses = s.responses := by cases r <;> rfl
@[simp] theorem State.writeReg_fill (s : State) (r : HdrReg) (v : Word) : (s.writeReg r v).fill = s.fill := by cases r <;> rfl
@[simp] theorem State.writeReg_msgSum (s : State) (r : HdrReg) (v : Word) : (s.writeReg r v).msgSum = s.msgSum := by cases r <;> rfl

/-! ## State.memWrite, State.buffer -/

@[simp] theorem State.memWrite_seq (s : State) (sp : Space) (a : Nat) (bs : List Byte) : (s.memWrite sp a bs).seq = s.seq := by cases sp <;> rfl
@[simp] theorem State.memWrite_ackn (s : State) (sp : Space) (a : Nat) (bs : List Byte) : (s.memWrite sp a bs).ackn = s.ackn := by cases sp <;> rfl
@[simp] theorem State.memWrite_win (s : State) (sp : Space) (a : Nat) (bs : List Byte) : (s.memWrite sp a bs).win = s.win := by cases sp <;> rfl
@[simp] theorem State.memWrite_flags (s : State) (sp : Space) (a : Nat) (bs : List Byte) : (s.memWrite sp a bs).flags = s.flags := by cases sp <;> rfl
@[simp] theorem State.memWrite_dlen (s : State) (sp : Space) (a : Nat) (bs : List Byte) : (s.memWrite sp a bs).dlen = s.dlen := by cases sp <;> rfl
@[simp] theorem State.memWrite_hcsum (s : State) (sp : Space) (a : Nat) (bs : List Byte) : (s.memWrite sp a bs).hcsum = s.hcsum := by cases sp <;> rfl
@[simp] theorem State.memWrite_mcsum (s : State) (sp : Space) (a : Nat) (bs : List Byte) : (s.memWrite sp a bs).mcsum = s.mcsum := by cases sp <;> rfl
@[simp] theorem State.memWrite_status (s : State) (sp : Space) (a : Nat) (bs : List Byte) : (s.memWrite sp a bs).status = s.status := by cases sp <;> rfl
@[simp] theorem State.memWrite_pending (s : State) (sp : Space) (a : Nat) (bs : List Byte) : (s.memWrite sp a bs).pending = s.pending := by cases sp <;> rfl
@[simp] theorem State.memWrite_responses (s : State) (sp : Space) (a : Nat) (bs : List Byte) : (s.memWrite sp a bs).responses = s.responses := by cases sp <;> rfl
@[simp] theorem State.memWrite_fill (s : State) (sp : Space) (a : Nat) (bs : List Byte) : (s.memWrite sp a bs).fill = s.fill := by cases sp <;> rfl
@[simp] theorem State.memWrite_msgSum (s : State) (sp : Space) (a : Nat) (bs : List Byte) : (s.memWrite sp a bs).msgSum = s.msgSum := by cases sp <;> rfl
@[simp] theorem State.memWrite_pbuf_pbuf (s : State) (a : Nat) (bs : List Byte) : (s.memWrite .pbuf a bs).pbuf = s.pbuf.store a bs := rfl
@[simp] theorem State.memWrite_pbuf_wbuf (s : State) (a : Nat) (bs : List Byte) : (s.memWrite .pbuf a bs).wbuf = s.wbuf := rfl
@[simp] theorem State.memWrite_wbuf_wbuf (s : State) (a : Nat) (bs : List Byte) : (s.memWrite .wbuf a bs).wbuf = s.wbuf.store a bs := rfl
@[simp] theorem State.memWrite_wbuf_pbuf (s : State) (a : Nat) (bs : List Byte) : (s.memWrite .wbuf a bs).pbuf = s.pbuf := rfl
@[simp] theorem State.buffer_pbuf (s : State) : s.buffer .pbuf = s.pbuf := rfl
@[simp] theorem State.buffer_wbuf (s : State) : s.buffer .wbuf = s.wbuf := rfl

/-! ## State.resetEvent, State.present -/

@[simp] theorem State.resetEvent_seq (s : State) (n : Nat) : (s.resetEvent n).seq = 0 := rfl
@[simp] theorem State.resetEvent_ackn (s : State) (n : Nat) : (s.resetEvent n).ackn = 0 := rfl
@[simp] theorem State.resetEvent_win (s : State) (n : Nat) : (s.resetEvent n).win = 0 := rfl
@[simp] theorem State.resetEvent_flags (s : State) (n : Nat) : (s.resetEvent n).flags = 0 := rfl
@[simp] theorem State.resetEvent_dlen (s : State) (n : Nat) : (s.resetEvent n).dlen = 0 := rfl
@[simp] theorem State.resetEvent_hcsum (s : State) (n : Nat) : (s.resetEvent n).hcsum = 0 := rfl
@[simp] theorem State.resetEvent_mcsum (s : State) (n : Nat) : (s.resetEvent n).mcsum = 0 := rfl
@[simp] theorem State.resetEvent_status (s : State) (n : Nat) : (s.resetEvent n).status = 0 := rfl
@[simp] theorem State.resetEvent_pbuf (s : State) (n : Nat) : (s.resetEvent n).pbuf = [] := rfl
@[simp] theorem State.resetEvent_wbuf (s : State) (n : Nat) : (s.resetEvent n).wbuf = [] := rfl
@[simp] theorem State.resetEvent_pending (s : State) (n : Nat) : (s.resetEvent n).pending = s.pending := rfl
@[simp] theorem State.resetEvent_responses (s : State) (n : Nat) : (s.resetEvent n).responses = [] := rfl
@[simp] theorem State.resetEvent_fill (s : State) (n : Nat) : (s.resetEvent n).fill = n := rfl
@[simp] theorem State.resetEvent_msgSum (s : State) (n : Nat) : (s.resetEvent n).msgSum = s.msgSum := rfl
@[simp] theorem State.present_seq (s : State) (w : Word64) : (s.present w).seq = s.seq := rfl
@[simp] theorem State.present_ackn (s : State) (w : Word64) : (s.present w).ackn = s.ackn := rfl
@[simp] theorem State.present_win (s : State) (w : Word64) : (s.present w).win = s.win := rfl
@[simp] theorem State.present_flags (s : State) (w : Word64) : (s.present w).flags = s.flags := rfl
@[simp] theorem State.present_dlen (s : State) (w : Word64) : (s.present w).dlen = s.dlen := rfl
@[simp] theorem State.present_hcsum (s : State) (w : Word64) : (s.present w).hcsum = s.hcsum := rfl
@[simp] theorem State.present_mcsum (s : State) (w : Word64) : (s.present w).mcsum = s.mcsum := rfl
@[simp] theorem State.present_status (s : State) (w : Word64) : (s.present w).status = s.status := rfl
@[simp] theorem State.present_pbuf (s : State) (w : Word64) : (s.present w).pbuf = s.pbuf := rfl
@[simp] theorem State.present_wbuf (s : State) (w : Word64) : (s.present w).wbuf = s.wbuf := rfl
@[simp] theorem State.present_pending (s : State) (w : Word64) : (s.present w).pending = HostInput.command w :: s.pending := rfl
@[simp] theorem State.present_responses (s : State) (w : Word64) : (s.present w).responses = s.responses := rfl
@[simp] theorem State.present_fill (s : State) (w : Word64) : (s.present w).fill = s.fill := rfl
@[simp] theorem State.present_msgSum (s : State) (w : Word64) : (s.present w).msgSum = s.msgSum := rfl

/-! ## FATAL and CAUSE after an error -/

@[simp] theorem fatalBit_statusAfter (x : Byte) (k : ErrorKind) :
    fatalBit (statusAfter x k) = (fatalBit x || k.isFatal) := by
  cases k <;> simp [fatalBit, statusAfter, ErrorKind.isFatal, ErrorKind.code, Code.num]

@[simp] theorem causeField_statusAfter (x : Byte) (k : ErrorKind) :
    causeField (statusAfter x k) = k.code.num.extractLsb' 0 4 := by
  revert x
  cases k <;> decide +kernel

@[simp] theorem State.fatal_raise (s : State) (k : ErrorKind) : (s.raise k).fatal = (s.fatal || k.isFatal) :=
  fatalBit_statusAfter s.status k

@[simp] theorem State.cause_raise (s : State) (k : ErrorKind) :
    (s.raise k).cause = k.code.num.extractLsb' 0 4 := causeField_statusAfter s.status k

end Sys2Proof.Machine
end

