-- ==== Sys2Proof/Laws/Memory.lean ====
section
/-! SUPPORT. The laws of the two buffers: reading after writing, the canonical form kept by every write, equal reads make
equal data, and the one-pass read equal to the byte-by-byte one. -/

namespace Sys2Proof.Machine

/-! ## Evaluation helpers say nothing -/

@[simp] theorem withNat_eq {α : Type} (n : Nat) (k : Nat → α) : withNat n k = k n := by
  cases n <;> rfl

@[simp] theorem withNumeral_eq {α : Type} (c : Word) (k : Word → α) : withNumeral c k = k c := by
  simp [withNumeral]

/-! ## Looking up -/

@[simp] theorem Memory.byte?_nil (x : Nat) : Memory.byte? [] x = none := rfl

theorem Memory.byte?_cons (c : Host.Cell) (m : Memory) (x : Nat) :
    Memory.byte? (c :: m) x = if x = c.1 then some c.2 else Memory.byte? m x := by
  rw [Memory.byte?, List.lookup_cons]
  by_cases h : x = c.1
  · simp [h]
  · rw [beq_false_of_ne h, if_neg h]
    rfl

theorem Memory.byte?_append (m m' : Memory) (x : Nat) :
    Memory.byte? (m ++ m') x = (Memory.byte? m x).or (Memory.byte? m' x) := by
  simp [Memory.byte?, List.lookup_append]

theorem Memory.byte?_cells (a : Nat) (bs : List Byte) (x : Nat) :
    Memory.byte? (Memory.cells a bs) x = if a ≤ x then bs[x - a]? else none := by
  induction bs generalizing a with
  | nil => simp [Memory.cells]
  | cons b bs ih =>
    rw [Memory.cells, withNat_eq, Memory.byte?_cons, ih]
    by_cases h : x = a
    · simp [h]
    · by_cases h' : a ≤ x
      · have : x - a = (x - (a + 1)) + 1 := by omega
        simp [h, h', show a + 1 ≤ x by omega, this]
      · simp [h, h', show ¬ a + 1 ≤ x by omega]

theorem Memory.byte?_filter (p : Nat → Bool) (m : Memory) (x : Nat) :
    Memory.byte? (m.filter fun c => p c.1) x = if p x then Memory.byte? m x else none := by
  induction m with
  | nil => simp
  | cons c m ih =>
    obtain ⟨a, b⟩ := c
    by_cases hp : p a <;> by_cases hx : x = a <;>
      simp_all [Memory.byte?_cons]

/-- Everything a store does to a read: the stored range reads as stored, every other address as before. -/
theorem Memory.byte?_store (m : Memory) (a : Nat) (bs : List Byte) (x : Nat) :
    Memory.byte? (m.store a bs) x =
      if a ≤ x ∧ x < a + bs.length then bs[x - a]? else Memory.byte? m x := by
  rw [Memory.store, Memory.byte?_append, Memory.byte?_append, Memory.byte?_cells,
    Memory.byte?_filter (fun n => decide (n < a)), Memory.byte?_filter (fun n => decide (a + bs.length ≤ n))]
  by_cases h1 : a ≤ x
  · by_cases h2 : x < a + bs.length
    · have : x - a < bs.length := by omega
      simp [h1, h2, List.getElem?_eq_getElem this, show ¬ x < a by omega]
    · have : bs.length ≤ x - a := by omega
      simp [h1, h2, List.getElem?_eq_none this, show ¬ x < a by omega, show a + bs.length ≤ x by omega]
  · simp [h1, show x < a by omega, show ¬ a + bs.length ≤ x by omega]

/-! ## The canonical form -/

theorem Memory.cells_fst (a : Nat) (bs : List Byte) : (Memory.cells a bs).map Prod.fst = List.range' a bs.length := by
  induction bs generalizing a with
  | nil => rfl
  | cons b bs ih => simp [Memory.cells, ih, List.range'_succ]

theorem Memory.mem_cells {a : Nat} {bs : List Byte} {c : Host.Cell} (h : c ∈ Memory.cells a bs) :
    a ≤ c.1 ∧ c.1 < a + bs.length := by
  have : c.1 ∈ (Memory.cells a bs).map Prod.fst := List.mem_map_of_mem h
  rw [Memory.cells_fst, List.mem_range'_1] at this
  exact this

/-- Every store that stays in the buffer keeps the canonical form. -/
theorem Memory.wf_store {size : Nat} {m : Memory} (h : Memory.wf size m) (a : Nat) (bs : List Byte)
    (hb : a + bs.length ≤ size) : Memory.wf size (m.store a bs) := by
  obtain ⟨hs, hr⟩ := h
  rw [List.pairwise_map] at hs
  refine ⟨?_, ?_⟩
  · rw [List.pairwise_map, Memory.store, List.pairwise_append, List.pairwise_append]
    refine ⟨⟨hs.filter _, ?_, ?_⟩, hs.filter _, ?_⟩
    · have h := List.pairwise_lt_range' (s := a) (n := bs.length)
      rw [← Memory.cells_fst, List.pairwise_map] at h
      exact h
    · intro c hc d hd
      have hd := Memory.mem_cells hd
      simp only [List.mem_filter, decide_eq_true_eq] at hc
      omega
    · intro c hc d hd
      simp only [List.mem_filter, decide_eq_true_eq] at hd
      rcases List.mem_append.1 hc with hc | hc
      · simp only [List.mem_filter, decide_eq_true_eq] at hc
        omega
      · have hc := Memory.mem_cells hc
        omega
  · intro c hc
    rcases List.mem_append.1 hc with hc | hc
    · rcases List.mem_append.1 hc with hc | hc
      · exact hr c (List.mem_filter.1 hc).1
      · have := Memory.mem_cells hc
        omega
    · exact hr c (List.mem_filter.1 hc).1

@[simp] theorem Memory.wf_nil (size : Nat) : Memory.wf size [] := by
  simp [Memory.wf]

theorem Memory.byte?_of_head {c : Host.Cell} {m : Memory} (h : List.Pairwise (· < ·) ((c :: m).map Prod.fst)) {x : Nat}
    (hx : x < c.1) : Memory.byte? (c :: m) x = none := by
  have : ∀ d ∈ c :: m, x < d.1 := by
    intro d hd
    rcases List.mem_cons.1 hd with rfl | hd
    · exact hx
    · have := (List.pairwise_cons.1 h).1 d.1 (List.mem_map_of_mem hd)
      omega
  rw [Memory.byte?, List.lookup_eq_none_iff]
  intro d hd
  have := this d hd
  simp only [bne_iff_ne, ne_eq]
  omega

/-- Two memories in canonical form with the same byte listed at every address are the same data. -/
theorem Memory.eq_of_byte? {size : Nat} {m m' : Memory} (h : Memory.wf size m) (h' : Memory.wf size m')
    (heq : ∀ x, Memory.byte? m x = Memory.byte? m' x) : m = m' := by
  obtain ⟨h, -⟩ := h
  obtain ⟨h', -⟩ := h'
  induction m generalizing m' with
  | nil =>
    cases m' with
    | nil => rfl
    | cons d m' => simpa [Memory.byte?_cons] using heq d.1
  | cons c m ih =>
    cases m' with
    | nil => simpa [Memory.byte?_cons] using heq c.1
    | cons d m' =>
      have hcd : c.1 = d.1 := by
        rcases Nat.lt_trichotomy c.1 d.1 with hlt | heq' | hlt
        · have := heq c.1
          rw [Memory.byte?_of_head h' hlt] at this
          simp [Memory.byte?_cons] at this
        · exact heq'
        · have := heq d.1
          rw [Memory.byte?_of_head h hlt] at this
          simp [Memory.byte?_cons] at this
      have hb : c.2 = d.2 := by
        have := heq c.1
        rw [Memory.byte?_cons, Memory.byte?_cons] at this
        simpa [hcd] using this
      have hm : m = m' := by
        refine ih (fun x => ?_) (List.pairwise_cons.1 h).2 (List.pairwise_cons.1 h').2
        have hx := heq x
        rw [Memory.byte?_cons, Memory.byte?_cons, ← hcd] at hx
        by_cases hxc : x = c.1
        · have none_of : ∀ {n : Memory}, (∀ e ∈ n.map Prod.fst, c.1 < e) → Memory.byte? n x = none := by
            intro n hn
            rw [Memory.byte?, List.lookup_eq_none_iff]
            intro e he
            have := hn e.1 (List.mem_map_of_mem he)
            simp only [bne_iff_ne, ne_eq]
            omega
          rw [none_of (List.pairwise_cons.1 h).1, none_of (hcd ▸ (List.pairwise_cons.1 h').1)]
        · simpa [hxc] using hx
      rw [hm, Prod.ext hcd hb]

/-! ## The one-pass read -/

theorem Memory.pairwise_of_rising {m : Memory} (h : m.rising = true) : List.Pairwise (· < ·) (m.map Prod.fst) := by
  rw [List.pairwise_map]
  refine List.IsChain.pairwise ?_
  induction m with
  | nil => exact .nil
  | cons c m ih =>
    cases m with
    | nil => exact .singleton _
    | cons d m =>
      simp only [Memory.rising, Bool.and_eq_true, Nat.blt_eq] at h
      exact .cons_cons h.1 (ih h.2)

theorem Memory.walk_eq (other : Nat → Byte) (n a : Nat) (m : Memory)
    (hm : List.Pairwise (· < ·) (m.map Prod.fst)) (ha : ∀ c ∈ m, a ≤ c.1) :
    Memory.walk other n a m = (List.range n).map fun i => (Memory.byte? m (a + i)).getD (other (a + i)) := by
  induction n generalizing a m with
  | zero => cases m <;> rfl
  | succ n ih =>
    rw [List.range_succ_eq_map, List.map_cons, List.map_map]
    have hcongr : ∀ m' : Memory, (∀ x, a < x → Memory.byte? m x = Memory.byte? m' x) →
        ((List.range n).map fun i => (Memory.byte? m' (a + 1 + i)).getD (other (a + 1 + i))) =
          (List.range n).map ((fun i => (Memory.byte? m (a + i)).getD (other (a + i))) ∘ Nat.succ) := by
      intro m' h'
      refine List.map_congr_left fun i _ => ?_
      have : a + 1 + i = a + i.succ := by omega
      rw [Function.comp_apply, this, h' _ (by omega)]
    cases m with
    | nil =>
      rw [Memory.walk, withNat_eq, ih _ _ hm (by simp), hcongr _ fun _ _ => rfl]
      rfl
    | cons c m =>
      have hc := List.pairwise_cons.1 hm
      have hlt : ∀ d ∈ m, c.1 < d.1 := fun d hd => hc.1 d.1 (List.mem_map_of_mem hd)
      have hac := ha c List.mem_cons_self
      rw [Memory.walk]
      by_cases h : c.1 = a
      · have hb : Nat.beq c.1 a = true := by rw [h]; exact Nat.beq_refl a
        rw [hb, cond_true, withNat_eq, ih _ _ hc.2 (fun d hd => by have := hlt d hd; omega),
          hcongr m fun x hx => by rw [Memory.byte?_cons, if_neg (by omega)], Nat.add_zero, Memory.byte?_cons,
          if_pos h.symm]
        rfl
      · have hb : Nat.beq c.1 a = false := by
          cases hq : Nat.beq c.1 a with
          | false => rfl
          | true => exact absurd (Nat.eq_of_beq_eq_true hq) h
        have hge : ∀ d ∈ c :: m, a + 1 ≤ d.1 := by
          intro d hd
          rcases List.mem_cons.1 hd with rfl | hd
          · omega
          · have := hlt d hd
            omega
        rw [hb, cond_false, withNat_eq, ih _ _ hm hge, hcongr _ fun _ _ => rfl, Nat.add_zero,
          Memory.byte?_of_head hm (by omega)]
        rfl

/-- `MemRead` is the byte-by-byte read, in every state. -/
theorem State.memRead_eq (s : State) (sp : Space) (a n : Nat) :
    s.memRead sp a n = (List.range n).map fun i => s.readByte sp (a + i) := by
  unfold State.memRead
  cases hr : (s.buffer sp).rising with
  | false => rfl
  | true =>
    have hp := Memory.pairwise_of_rising hr
    rw [cond_true, Memory.walk_eq]
    · refine List.map_congr_left fun i _ => ?_
      rw [Memory.byte?_filter (fun n => decide (a ≤ n))]
      simp [State.readByte]
    · rw [List.pairwise_map] at hp ⊢
      exact hp.filter _
    · intro c hc
      simpa using (List.mem_filter.1 hc).2

@[simp] theorem State.length_memRead (s : State) (sp : Space) (a n : Nat) : (s.memRead sp a n).length = n := by
  simp [State.memRead_eq]

theorem State.getElem?_memRead (s : State) (sp : Space) (a n i : Nat) :
    (s.memRead sp a n)[i]? = if i < n then some (s.readByte sp (a + i)) else none := by
  by_cases h : i < n <;> simp [State.memRead_eq, h]

theorem State.byteAt_memRead (s : State) (sp : Space) (a n i : Nat) (h : i < n) :
    byteAt (s.memRead sp a n) i = s.readByte sp (a + i) := by
  rw [byteAt, List.getD_eq_getElem?_getD, State.getElem?_memRead, if_pos h, Option.getD_some]

/-! ## Reading after writing -/

/-- Reading a byte of the space written to: the stored range reads as stored, every other address as before. -/
theorem State.readByte_memWrite (s : State) (sp : Space) (a : Nat) (bs : List Byte) (x : Nat) :
    (s.memWrite sp a bs).readByte sp x =
      if a ≤ x ∧ x < a + bs.length then byteAt bs (x - a) else s.readByte sp x := by
  have hbuf : (s.memWrite sp a bs).buffer sp = (s.buffer sp).store a bs := by cases sp <;> rfl
  rw [State.readByte, hbuf, Memory.byte?_store]
  by_cases h : a ≤ x ∧ x < a + bs.length
  · have : x - a < bs.length := by omega
    simp [h, byteAt, List.getD_eq_getElem?_getD, List.getElem?_eq_getElem this]
  · simp [h, State.readByte]

/-- Reading a byte of the other space: as before (20_memory.md R25). -/
theorem State.readByte_memWrite_of_ne (s : State) {sp sp' : Space} (h : sp' ≠ sp) (a : Nat) (bs : List Byte) (x : Nat) :
    (s.memWrite sp a bs).readByte sp' x = s.readByte sp' x := by
  cases sp <;> cases sp' <;> first | exact absurd rfl h | rfl

/-- A read depends on its buffer and on the name of the unwritten contents alone. -/
theorem State.readByte_congr {s t : State} {sp : Space} (hb : t.buffer sp = s.buffer sp) (hf : t.fill = s.fill) (a : Nat) :
    t.readByte sp a = s.readByte sp a := by
  simp [State.readByte, hb, hf]

theorem State.memRead_congr {s t : State} {sp sp' : Space} {a a' n : Nat}
    (h : ∀ i < n, t.readByte sp (a + i) = s.readByte sp' (a' + i)) : t.memRead sp a n = s.memRead sp' a' n := by
  simp only [State.memRead_eq]
  exact List.map_congr_left fun i hi => h i (List.mem_range.1 hi)

/-- A written byte reads the same whatever the unwritten contents are. -/
theorem State.readByte_written {s t : State} {sp : Space} {a : Nat} (hb : t.buffer sp = s.buffer sp)
    (hw : ((s.buffer sp).byte? a).isSome = true) : t.readByte sp a = s.readByte sp a := by
  obtain ⟨x, hx⟩ := Option.isSome_iff_exists.1 hw
  simp [State.readByte, hb, hx]

end Sys2Proof.Machine
end

