-- ==== Sys2Proof/Laws/Process.lean ====
section
/-! SUPPORT. What the processing order (60_exceptions.md R107) makes of a command in each of its cases, and each command's
meaning as one action under it, so that no proof unfolds `State.process` or a meaning again. -/

namespace Sys2Proof.Machine

/-! ## The processing order -/

/-- A legal command of a non-fatal block runs its own action. -/
theorem State.process_run {s : State} (h : s.fatal = false) (isRead : Bool) (act : State → State) :
    s.process isRead true act = act s := by
  simp [State.process, h]

/-- A legal RDREG or RDBUF runs in every state. -/
theorem State.process_read (s : State) (act : State → State) : s.process true true act = act s := by
  simp [State.process]

/-- An illegal command of a non-fatal block raises IllegalCommand. -/
theorem State.process_illegal {s : State} (h : s.fatal = false) (isRead : Bool) (act : State → State) :
    s.process isRead false act = s.raise .illegalCommand := by
  simp [State.process, h]

/-- A halted block refuses every command but a legal RDREG or RDBUF. -/
theorem State.process_halted {s : State} (h : s.fatal = true) {isRead legal : Bool} (hr : (isRead && legal) = false)
    (act : State → State) : s.process isRead legal act = s.refuseHalted := by
  simp only [State.process, h, hr, Bool.not_false, Bool.and_self, if_true]

/-- Everything `State.process` can do. -/
theorem State.process_cases (s : State) (isRead legal : Bool) (act : State → State) :
    (s.fatal = true ∧ (isRead && legal) = false ∧ s.process isRead legal act = s.refuseHalted) ∨
    (s.fatal = false ∧ legal = false ∧ s.process isRead legal act = s.raise .illegalCommand) ∨
    (legal = true ∧ (s.fatal = true → isRead = true) ∧ s.process isRead legal act = act s) := by
  cases hf : s.fatal <;> cases isRead <;> cases legal <;> simp [State.process, hf]

/-! ## Each meaning as one action -/

/-- The command is one of the two a halted block still executes (60_exceptions.md R105). -/
def isReadInstr : Instr → Bool
  | .rdreg _ | .rdbuf _ _ => true
  | .wrreg _ _ | .wrbuf _ _ _ | .hcsm | .hvfy | .henc | .hdec | .fset _ _ | .fget _ | .noflg | .menc _ | .mdec => false

/-- A command's own action, once the common checks have passed. -/
def actionOf : Instr → State → State
  | .rdreg r, s => s.respond (s.readReg r)
  | .wrreg r v, s => (s.writeReg r v).respond 0
  | .rdbuf sp addr, s => s.respond ((s.readByte sp addr.toNat).setWidth 32)
  | .wrbuf sp addr x, s => (s.memWrite sp addr.toNat [x]).respond 0
  | .hcsm, s => { s with hcsum := s.headerSum }.respond (s.headerSum.setWidth 32)
  | .hvfy, s => s.respond (boolVal (s.hcsum == s.headerSum))
  | .henc, s => (s.memWrite .wbuf 0 (hdrBytes s.header)).respond 0
  | .hdec, s => (s.setHeader (hdrFields (s.memRead .wbuf 0 12))).respond 0
  | .fset f v, s => { s with flags := setFlag s.flags f v }.respond 0
  | .fget f, s => s.respond (boolVal (getFlag s.flags f))
  | .noflg, s => s.respond (boolVal (noFlags s.flags))
  | .menc plen, s => if plen.toNat > 255 then s.raise .payloadTooLarge else (s.mencWrites plen).respond 0
  | .mdec, s =>
    if s.headerCheck = false then s.raise .headerChecksumMismatch
    else if s.messageCheck = false then s.raise .messageChecksumMismatch
    else s.mdecWrites.respond 0

/-- Every command is its action under the processing order, legal exactly when it is well-formed. -/
theorem exec_eq_process (i : Instr) (s : State) : exec i s = .next (s.process (isReadInstr i) i.wf (actionOf i)) := by
  cases i with
  | menc plen =>
    refine congrArg Host.Outcome.next (congrArg (State.process s false true) (funext fun s => ?_))
    by_cases h : plen.toNat > 1000
    · simp [actionOf, h, show plen.toNat > 255 by omega]
    · simp [actionOf, h]
  | mdec =>
    refine congrArg Host.Outcome.next (congrArg (State.process s false true) (funext fun s => ?_))
    cases h : s.headerCheck <;> cases h' : s.messageCheck <;> simp [actionOf, h, h']
  | rdreg _ => rfl
  | wrreg _ _ => rfl
  | rdbuf _ _ => rfl
  | wrbuf _ _ _ => rfl
  | hcsm => rfl
  | hvfy => rfl
  | henc => rfl
  | hdec => rfl
  | fset _ _ => rfl
  | fget _ => rfl
  | noflg => rfl

/-- A well-formed command of a non-fatal block is its action. -/
theorem exec_run {i : Instr} (hi : i.wf = true) {s : State} (h : s.fatal = false) : exec i s = .next (actionOf i s) := by
  rw [exec_eq_process, hi, State.process_run h]

/-! ## Steps -/

/-- A presented word is processed with the rest of the host's inputs as they were. -/
theorem step_present (s : State) (w : Word64) : step (s.present w) = processWord w s := rfl

theorem processWord_ok {w : Word64} {i : Instr} (h : decode w = .ok i) (s : State) : processWord w s = exec i s := by
  simp [processWord, h]

theorem processWord_error {w : Word64} {e : DecodeError} (h : decode w = .error e) (s : State) :
    processWord w s = .next s.illegalWord := by
  simp [processWord, h]

/-- Everything one command word can do: it is refused by a halted block, or raises IllegalCommand, or is a legal
command whose action runs. -/
theorem processWord_cases (w : Word64) (s : State) :
    (processWord w s = .next s.refuseHalted ∧ s.fatal = true ∧
      ∀ i, decode w = .ok i → (isReadInstr i && i.wf) = false) ∨
    (processWord w s = .next (s.raise .illegalCommand) ∧ s.fatal = false ∧
      ∀ i, decode w = .ok i → i.wf = false) ∨
    (∃ i, decode w = .ok i ∧ i.wf = true ∧ (s.fatal = true → isReadInstr i = true) ∧
      processWord w s = .next (actionOf i s)) := by
  cases h : decode w with
  | error e =>
    rw [processWord_error h, State.illegalWord]
    cases hf : s.fatal with
    | true => exact .inl ⟨by rw [State.process_halted hf rfl], rfl, fun i hi => by cases hi⟩
    | false => exact .inr (.inl ⟨by rw [State.process_illegal hf], rfl, fun i hi => by cases hi⟩)
  | ok i =>
    rw [processWord_ok h, exec_eq_process]
    rcases State.process_cases s (isReadInstr i) i.wf (actionOf i) with ⟨hf, hr, he⟩ | ⟨hf, hl, he⟩ | ⟨hl, hf, he⟩
    · exact .inl ⟨by rw [he], hf, fun j hj => by cases hj; exact hr⟩
    · exact .inr (.inl ⟨by rw [he], hf, fun j hj => by cases hj; exact hl⟩)
    · exact .inr (.inr ⟨i, rfl, hl, hf, by rw [he]⟩)

/-- A run of one step more: when the first step answers a next state, the run goes on from it. -/
theorem run_succ {M : Host.Core} {k : Nat} {s t : M.State} (h : M.step s = .next t) : M.run (k + 1) s = M.run k t := by
  simp [Host.Core.run, h]

/-! ## The two checks of MDEC -/

theorem State.headerCheck_iff (s : State) : s.headerCheck = true ↔ WireHeaderValid s := by
  have h : s.wireHeader.take 10 = s.memRead .wbuf 0 10 := by
    refine List.ext_getElem? fun k => ?_
    rw [List.getElem?_take, State.wireHeader, State.getElem?_memRead, State.getElem?_memRead]
    by_cases hk : k < 10 <;> simp [hk, show k < 10 → k < 12 by omega]
  have h10 : byteAt s.wireHeader 10 = s.readByte .wbuf 10 := State.byteAt_memRead _ _ _ _ _ (by decide)
  have h11 : byteAt s.wireHeader 11 = s.readByte .wbuf 11 := State.byteAt_memRead _ _ _ _ _ (by decide)
  rw [State.headerCheck, beq_iff_eq, WireHeaderValid, h, ← h10, ← h11]
  exact Iff.rfl

theorem State.messageCheck_iff (s : State) : s.messageCheck = true ↔ WireMessageValid s := by
  rw [State.messageCheck, beq_iff_eq]
  exact Iff.rfl

end Sys2Proof.Machine
end

