-- ==== Sys2Proof/Laws/Codec.lean ====
section
/-! SUPPORT. Byte order and checksum laws that the header and message statements rest on: big-endian packing and its
inverse, the lengths of the encodings, ones'-complement addition as arithmetic, and the CRC's shift as a linear and
injective function. -/

namespace Sys2Proof.Machine

/-! ## Byte order -/

theorem toNat_u16be (b0 b1 : Byte) : (u16be b0 b1).toNat = b0.toNat * 256 + b1.toNat := by
  rw [u16be, BitVec.toNat_append, Nat.shiftLeft_eq, Nat.mul_comm, ← Nat.two_pow_add_eq_or_of_lt b1.isLt, Nat.mul_comm]

theorem toNat_u32be (b0 b1 b2 b3 : Byte) :
    (u32be b0 b1 b2 b3).toNat = b0.toNat * 2 ^ 24 + b1.toNat * 2 ^ 16 + b2.toNat * 2 ^ 8 + b3.toNat := by
  simp only [u32be, BitVec.toNat_append, Nat.shiftLeft_eq]
  have h1 : b0.toNat * 2 ^ 8 ||| b1.toNat = b0.toNat * 2 ^ 8 + b1.toNat := by
    rw [Nat.mul_comm, ← Nat.two_pow_add_eq_or_of_lt b1.isLt]
  have h2 : (b0.toNat * 2 ^ 8 + b1.toNat) * 2 ^ 8 ||| b2.toNat = (b0.toNat * 2 ^ 8 + b1.toNat) * 2 ^ 8 + b2.toNat := by
    rw [Nat.mul_comm, ← Nat.two_pow_add_eq_or_of_lt b2.isLt]
  have h3 : ((b0.toNat * 2 ^ 8 + b1.toNat) * 2 ^ 8 + b2.toNat) * 2 ^ 8 ||| b3.toNat =
      ((b0.toNat * 2 ^ 8 + b1.toNat) * 2 ^ 8 + b2.toNat) * 2 ^ 8 + b3.toNat := by
    rw [Nat.mul_comm, ← Nat.two_pow_add_eq_or_of_lt b3.isLt]
  rw [h1, h2, h3]
  omega

theorem toNat_byte (v : Word) (k : Nat) : (v.extractLsb' k 8).toNat = v.toNat / 2 ^ k % 256 := by
  simp [BitVec.extractLsb'_toNat, Nat.shiftRight_eq_div_pow]

theorem toNat_byte16 (v : Half) (k : Nat) : (v.extractLsb' k 8).toNat = v.toNat / 2 ^ k % 256 := by
  simp [BitVec.extractLsb'_toNat, Nat.shiftRight_eq_div_pow]

/-- `be16` and `u16be` are inverse to each other (00_scope.md R8). -/
theorem u16be_be16 (v : Half) : u16be (v.extractLsb' 8 8) (v.extractLsb' 0 8) = v := by
  refine BitVec.eq_of_toNat_eq ?_
  have := v.isLt
  rw [toNat_u16be, toNat_byte16, toNat_byte16]
  omega

theorem be16_u16be (b0 b1 : Byte) : be16 (u16be b0 b1) = [b0, b1] := by
  have h0 := b0.isLt
  have h1 := b1.isLt
  simp only [be16, List.cons.injEq, and_true]
  constructor <;> refine BitVec.eq_of_toNat_eq ?_ <;> rw [toNat_byte16, toNat_u16be] <;> omega

/-- `be32` and `u32be` are inverse to each other (00_scope.md R8). -/
theorem u32be_be32 (v : Word) :
    u32be (v.extractLsb' 24 8) (v.extractLsb' 16 8) (v.extractLsb' 8 8) (v.extractLsb' 0 8) = v := by
  refine BitVec.eq_of_toNat_eq ?_
  have := v.isLt
  rw [toNat_u32be, toNat_byte, toNat_byte, toNat_byte, toNat_byte]
  omega

theorem be32_u32be (b0 b1 b2 b3 : Byte) : be32 (u32be b0 b1 b2 b3) = [b0, b1, b2, b3] := by
  have h0 := b0.isLt
  have h1 := b1.isLt
  have h2 := b2.isLt
  have h3 := b3.isLt
  simp only [be32, List.cons.injEq, and_true]
  refine ⟨?_, ?_, ?_, ?_⟩ <;> refine BitVec.eq_of_toNat_eq ?_ <;> rw [toNat_byte, toNat_u32be] <;> omega

@[simp] theorem length_be16 (v : Half) : (be16 v).length = 2 := rfl

@[simp] theorem length_be32 (v : Word) : (be32 v).length = 4 := rfl

@[simp] theorem length_zeros (n : Nat) : (zeros n).length = n := List.length_replicate

@[simp] theorem length_hdrBytes10 (h : Header) : (hdrBytes10 h).length = 10 := rfl

@[simp] theorem length_hdrBytes (h : Header) : (hdrBytes h).length = 12 := rfl

/-- The first ten bytes of a Header's encoding (41_header_codec.md R65). -/
theorem take_hdrBytes (h : Header) : (hdrBytes h).take 10 = hdrBytes10 h := rfl

theorem byteAt_append_left {A B : List Byte} {i : Nat} (h : i < A.length) : byteAt (A ++ B) i = byteAt A i := by
  simp only [byteAt, List.getD_eq_getElem?_getD, List.getElem?_append_left h]

theorem byteAt_append_right {A B : List Byte} {i : Nat} (h : A.length ≤ i) :
    byteAt (A ++ B) i = byteAt B (i - A.length) := by
  simp only [byteAt, List.getD_eq_getElem?_getD, List.getElem?_append_right h]

@[simp] theorem byteAt_zeros (n i : Nat) : byteAt (zeros n) i = 0 := by
  simp only [byteAt, zeros, List.getD_eq_getElem?_getD, List.getElem?_replicate]
  split <;> rfl

/-- Two sequences of one length with the same bytes are equal. -/
theorem eq_of_byteAt {A B : List Byte} (hl : A.length = B.length) (h : ∀ i < A.length, byteAt A i = byteAt B i) :
    A = B := by
  refine List.ext_getElem hl fun i h1 h2 => ?_
  simpa [byteAt, List.getD_eq_getElem?_getD, List.getElem?_eq_getElem h1, List.getElem?_eq_getElem h2] using h i h1

@[simp] theorem State.length_mencPayload (s : State) (plen : Half) (h : plen.toNat ≤ 1000) :
    (s.mencPayload plen).length = 1000 := by
  simp only [State.mencPayload, List.length_append, State.length_memRead, length_zeros]
  show plen.toNat + (1000 - plen.toNat) = 1000
  omega

/-! ## Ones'-complement addition as arithmetic -/

theorem toNat_ocAdd16 (s w : Half) :
    (ocAdd16 s w).toNat = if s.toNat + w.toNat ≤ 0xFFFF then s.toNat + w.toNat else s.toNat + w.toNat - 0xFFFF := by
  have h1 := s.isLt
  have h2 := w.isLt
  simp only [ocAdd16, BitVec.toNat_ofNat]
  split <;> omega

/-! ## The CRC register -/

/-- The shift is linear: it distributes over exclusive-or. -/
theorem crcShift_xor (c d : Word) : crcShift (c ^^^ d) = crcShift c ^^^ crcShift d := by
  simp only [crcShift, BitVec.getLsbD_xor, BitVec.ushiftRight_xor_distrib]
  cases c.getLsbD 0 <;> cases d.getLsbD 0 <;> simp
  · ac_rfl
  · ac_rfl
  · have : c >>> 1 ^^^ crcPoly ^^^ (d >>> 1 ^^^ crcPoly) = c >>> 1 ^^^ d >>> 1 ^^^ (crcPoly ^^^ crcPoly) := by ac_rfl
    rw [this, BitVec.xor_self, BitVec.xor_zero]

theorem crcShift_eq_zero {c : Word} (h : crcShift c = 0) : c = 0 := by
  have h31 : (crcShift c).getLsbD 31 = c.getLsbD 0 := by
    simp only [crcShift]
    cases hc : c.getLsbD 0 with
    | true =>
      have h2 : crcPoly.getLsbD 31 = true := by decide
      have h3 : (c >>> 1).getLsbD 31 = false := by
        rw [BitVec.getLsbD_ushiftRight]
        exact BitVec.getLsbD_of_ge c _ (by decide)
      rw [if_pos rfl, BitVec.getLsbD_xor, h2, h3]
      rfl
    | false =>
      rw [if_neg (by decide), BitVec.getLsbD_ushiftRight]
      exact BitVec.getLsbD_of_ge c _ (by decide)
  have h0 : c.getLsbD 0 = false := by
    rw [← h31, h]
    exact BitVec.getLsbD_zero
  refine BitVec.eq_of_getLsbD_eq fun k hk => ?_
  show c.getLsbD k = (0#32).getLsbD k
  rw [BitVec.getLsbD_zero]
  cases k with
  | zero => exact h0
  | succ k =>
    have : (crcShift c).getLsbD k = c.getLsbD (k + 1) := by
      rw [crcShift, h0, if_neg (by decide), BitVec.getLsbD_ushiftRight, Nat.add_comm]
    rw [← this, h]
    exact BitVec.getLsbD_zero

theorem crcShifts_xor (n : Nat) (c d : Word) : crcShifts n (c ^^^ d) = crcShifts n c ^^^ crcShifts n d := by
  induction n generalizing c d with
  | zero => rfl
  | succ n ih => simp only [crcShifts, crcShift_xor, ih]

theorem crcShifts_eq_zero {n : Nat} {c : Word} (h : crcShifts n c = 0) : c = 0 := by
  induction n generalizing c with
  | zero => exact h
  | succ n ih => exact crcShift_eq_zero (ih h)

theorem crcShifts_add (m n : Nat) (c : Word) : crcShifts (m + n) c = crcShifts n (crcShifts m c) := by
  induction m generalizing c with
  | zero => rw [Nat.zero_add]; rfl
  | succ m ih => rw [Nat.add_right_comm]; exact ih _

theorem crcFrom_cons (c : Word) (x : Byte) (xs : List Byte) : crcFrom c (x :: xs) = crcFrom (crcByte c x) xs := by
  simp [crcFrom]

theorem crcFrom_append (c : Word) (A B : List Byte) : crcFrom c (A ++ B) = crcFrom (crcFrom c A) B := by
  induction A generalizing c with
  | nil => rfl
  | cons x A ih => rw [List.cons_append, crcFrom_cons, crcFrom_cons, ih]

end Sys2Proof.Machine
end

