-- ==== Sys2Proof/Laws/Decode.lean ====
section
/-! SUPPORT. The four fields of a command word as numbers, and packing them as its inverse (30_encoding.md R45). -/

namespace Sys2Proof.Machine

/-! ## Fields as numbers -/

theorem toNat_opField (w : Word64) : (opField w).toNat = opNum w := by
  have := w.isLt
  rw [opField, BitVec.extractLsb'_toNat, Nat.shiftRight_eq_div_pow, opNum]
  omega

theorem toNat_aField (w : Word64) : (aField w).toNat = aNum w := by
  rw [aField, BitVec.extractLsb'_toNat, Nat.shiftRight_eq_div_pow, aNum]

theorem toNat_bField (w : Word64) : (bField w).toNat = bNum w := by
  rw [bField, BitVec.extractLsb'_toNat, Nat.shiftRight_eq_div_pow, bNum]

theorem toNat_immField (w : Word64) : (immField w).toNat = immNum w := by
  rw [immField, BitVec.extractLsb'_toNat, Nat.shiftRight_zero, immNum]

theorem toNat_packWord (op a : Byte) (b : Half) (imm : Word) :
    (packWord op a b imm).toNat = op.toNat * 2 ^ 56 + a.toNat * 2 ^ 48 + b.toNat * 2 ^ 32 + imm.toNat := by
  have h1 : op.toNat * 2 ^ 8 ||| a.toNat = op.toNat * 2 ^ 8 + a.toNat := by
    rw [Nat.mul_comm, ← Nat.two_pow_add_eq_or_of_lt a.isLt]
  have h2 : (op.toNat * 2 ^ 8 + a.toNat) * 2 ^ 16 ||| b.toNat = (op.toNat * 2 ^ 8 + a.toNat) * 2 ^ 16 + b.toNat := by
    rw [Nat.mul_comm, ← Nat.two_pow_add_eq_or_of_lt b.isLt]
  have h3 : ((op.toNat * 2 ^ 8 + a.toNat) * 2 ^ 16 + b.toNat) * 2 ^ 32 ||| imm.toNat =
      ((op.toNat * 2 ^ 8 + a.toNat) * 2 ^ 16 + b.toNat) * 2 ^ 32 + imm.toNat := by
    rw [Nat.mul_comm, ← Nat.two_pow_add_eq_or_of_lt imm.isLt]
  simp only [packWord, BitVec.toNat_append, Nat.shiftLeft_eq]
  rw [h1, h2, h3]
  omega

/-! ## Packing and the fields are inverse -/

@[simp] theorem opField_packWord (op a : Byte) (b : Half) (imm : Word) : opField (packWord op a b imm) = op := by
  refine BitVec.eq_of_toNat_eq ?_
  have := a.isLt
  have := b.isLt
  have := imm.isLt
  rw [toNat_opField, opNum, toNat_packWord]
  omega

@[simp] theorem aField_packWord (op a : Byte) (b : Half) (imm : Word) : aField (packWord op a b imm) = a := by
  refine BitVec.eq_of_toNat_eq ?_
  have := a.isLt
  have := b.isLt
  have := imm.isLt
  rw [toNat_aField, aNum, toNat_packWord]
  omega

@[simp] theorem bField_packWord (op a : Byte) (b : Half) (imm : Word) : bField (packWord op a b imm) = b := by
  refine BitVec.eq_of_toNat_eq ?_
  have := b.isLt
  have := imm.isLt
  rw [toNat_bField, bNum, toNat_packWord]
  omega

@[simp] theorem immField_packWord (op a : Byte) (b : Half) (imm : Word) : immField (packWord op a b imm) = imm := by
  refine BitVec.eq_of_toNat_eq ?_
  have := imm.isLt
  rw [toNat_immField, immNum, toNat_packWord]
  omega

theorem packWord_fields (w : Word64) : packWord (opField w) (aField w) (bField w) (immField w) = w := by
  refine BitVec.eq_of_toNat_eq ?_
  have := w.isLt
  rw [toNat_packWord, toNat_opField, toNat_aField, toNat_bField, toNat_immField, opNum, aNum, bNum, immNum]
  omega

/-! ## Well-formedness as inequalities -/

theorem fits_iff (r : HdrReg) (v : Word) : r.fits v = true ↔ v.toNat < 2 ^ r.width := decide_eq_true_iff

theorem holds_pbuf_iff (addr : Half) : Space.pbuf.holds addr = true ↔ addr.toNat < 1000 := decide_eq_true_iff

theorem holds_wbuf_iff (addr : Half) : Space.wbuf.holds addr = true ↔ addr.toNat < 1016 := decide_eq_true_iff

end Sys2Proof.Machine
end

