-- ==== Sys2Proof/Laws/PerInstr.lean ====
section
/-! SUPPORT. The statements made of every instruction, one lemma per constructor: the word of an instruction carries its
opcode, and is a legal command when the instruction is well-formed. -/

namespace Sys2Proof.Laws.EncodedOp

open Sys2Proof.Machine

/-- The opcode map (30_encoding.md R50). -/
def opcode : Instr → Nat
  | .rdreg _ => 0x01
  | .wrreg _ _ => 0x02
  | .rdbuf _ _ => 0x03
  | .wrbuf _ _ _ => 0x04
  | .hcsm => 0x10
  | .hvfy => 0x11
  | .henc => 0x12
  | .hdec => 0x13
  | .fset _ _ => 0x20
  | .fget _ => 0x21
  | .noflg => 0x22
  | .menc _ => 0x30
  | .mdec => 0x31

/-- The word of an instruction carries the opcode of 30_encoding.md R50, and is legal (R52) when the instruction is
well-formed. -/
def Statement (i : Instr) : Prop :=
  opNum (encode i) = opcode i ∧ (i.wf = true → LegalWord (encode i))

/-- The statement, from the four fields of the instruction's word. -/
theorem of_fields {i : Instr} {op a : Byte} {b : Half} {imm : Word} (he : encode i = packWord op a b imm)
    (hop : op.toNat = opcode i)
    (hl : i.wf = true → ∀ w : Word64, opNum w = op.toNat → aNum w = a.toNat → bNum w = b.toNat → immNum w = imm.toNat →
      LegalWord w) : Statement i := by
  have h1 : opNum (encode i) = op.toNat := by rw [← toNat_opField, he, opField_packWord]
  have h2 : aNum (encode i) = a.toNat := by rw [← toNat_aField, he, aField_packWord]
  have h3 : bNum (encode i) = b.toNat := by rw [← toNat_bField, he, bField_packWord]
  have h4 : immNum (encode i) = imm.toNat := by rw [← toNat_immField, he, immField_packWord]
  exact ⟨h1.trans hop, fun hw => hl hw _ h1 h2 h3 h4⟩

theorem rdreg (r : Reg) : Statement (.rdreg r) :=
  of_fields (op := 0x01) (a := r.index) (b := 0) (imm := 0) rfl rfl fun _ w ho ha hb hi => by
    cases r <;> simp [LegalWord, ho, ha, hb, hi, Reg.index]

theorem wrreg (r : HdrReg) (v : Word) : Statement (.wrreg r v) :=
  of_fields (op := 0x02) (a := r.reg.index) (b := 0) (imm := v) rfl rfl fun hw w ho ha hb hi => by
    have hv : v.toNat < 2 ^ r.width := (fits_iff r v).1 hw
    cases r <;> simp [LegalWord, ValueFits, ho, ha, hb, hi, HdrReg.reg, Reg.index] <;> exact hv

theorem rdbuf (sp : Space) (addr : Half) : Statement (.rdbuf sp addr) :=
  of_fields (op := 0x03) (a := sp.index) (b := addr) (imm := 0) rfl rfl fun hw w ho ha hb hi => by
    have hv : addr.toNat < sp.size := of_decide_eq_true hw
    cases sp <;> simp [LegalWord, AddressExists, ho, ha, hb, hi, Space.index] <;> exact hv

theorem wrbuf (sp : Space) (addr : Half) (x : Byte) : Statement (.wrbuf sp addr x) :=
  of_fields (op := 0x04) (a := sp.index) (b := addr) (imm := x.setWidth 32) rfl rfl fun hw w ho ha hb hi => by
    have hv : addr.toNat < sp.size := of_decide_eq_true hw
    have hx : (x.setWidth 32).toNat < 256 := by
      have := x.isLt
      rw [BitVec.toNat_setWidth]
      omega
    rw [← hi] at hx
    cases sp <;> simp [LegalWord, AddressExists, ho, ha, hb, hx, Space.index] <;> exact hv

theorem hcsm : Statement .hcsm :=
  of_fields (op := 0x10) (a := 0) (b := 0) (imm := 0) rfl rfl fun _ w ho ha hb hi => by simp [LegalWord, ho, ha, hb, hi]

theorem hvfy : Statement .hvfy :=
  of_fields (op := 0x11) (a := 0) (b := 0) (imm := 0) rfl rfl fun _ w ho ha hb hi => by simp [LegalWord, ho, ha, hb, hi]

theorem henc : Statement .henc :=
  of_fields (op := 0x12) (a := 0) (b := 0) (imm := 0) rfl rfl fun _ w ho ha hb hi => by simp [LegalWord, ho, ha, hb, hi]

theorem hdec : Statement .hdec :=
  of_fields (op := 0x13) (a := 0) (b := 0) (imm := 0) rfl rfl fun _ w ho ha hb hi => by simp [LegalWord, ho, ha, hb, hi]

theorem fset (f : Flag) (v : Bool) : Statement (.fset f v) :=
  of_fields (op := 0x20) (a := f.index) (b := 0) (imm := if v then 1 else 0) rfl rfl fun _ w ho ha hb hi => by
    cases f <;> cases v <;> simp [LegalWord, ho, ha, hb, hi, Flag.index, Flag.bit]

theorem fget (f : Flag) : Statement (.fget f) :=
  of_fields (op := 0x21) (a := f.index) (b := 0) (imm := 0) rfl rfl fun _ w ho ha hb hi => by
    cases f <;> simp [LegalWord, ho, ha, hb, hi, Flag.index, Flag.bit]

theorem noflg : Statement .noflg :=
  of_fields (op := 0x22) (a := 0) (b := 0) (imm := 0) rfl rfl fun _ w ho ha hb hi => by simp [LegalWord, ho, ha, hb, hi]

theorem menc (plen : Half) : Statement (.menc plen) :=
  of_fields (op := 0x30) (a := 0) (b := plen) (imm := 0) rfl rfl fun _ w ho ha hb hi => by simp [LegalWord, ho, ha, hi]

theorem mdec : Statement .mdec :=
  of_fields (op := 0x31) (a := 0) (b := 0) (imm := 0) rfl rfl fun _ w ho ha hb hi => by simp [LegalWord, ho, ha, hb, hi]

end Sys2Proof.Laws.EncodedOp
end

