-- ==== Sys2Proof/Machine/Assembler.lean ====
section
/-! DEFINITION. The spec's assembler (30_encoding.md R54, R55): its line forms as terms, their words, and the reading of a
line of text. It is how programs are written down; no step of the machine uses it (log entry 12). -/

namespace Sys2Proof.Machine

/-- A line of assembly: the 13 command forms and `.word` (30_encoding.md R54), and the pseudo-instructions (R55). Operands
are numbers as written, legal or not. -/
inductive AsmLine where
  | rdreg (reg : Nat)
  | wrreg (reg value : Nat)
  | rdbuf (space addr : Nat)
  | wrbuf (space addr byte : Nat)
  | hcsm
  | hvfy
  | henc
  | hdec
  | fset (flag v : Nat)
  | fget (flag : Nat)
  | noflg
  | menc (plen : Nat)
  | mdec
  /-- `.word 0x…` -/
  | raw (w : Nat)
  /-- `FCLR flag` -/
  | fclr (flag : Nat)
  /-- `LDHDR s, a, w, f, d, c`; the five-argument form has `c` = 0 -/
  | ldhdr (s a w f d c : Nat)
  /-- `LDPAY b0, …` or `LDPAY "text"` -/
  | ldpay (bytes : List Nat)
  /-- `LDWIRE addr, b0, …` -/
  | ldwire (addr : Nat) (bytes : List Nat)
deriving DecidableEq, Repr

/-! ## Words of a line -/

/-- The word of four field values, if each fits its field (30_encoding.md R45, R48); legality is not asked. -/
def asmWord (op a b imm : Nat) : Option Word64 :=
  if a < 2 ^ 8 ∧ b < 2 ^ 16 ∧ imm < 2 ^ 32 then
    some (packWord (BitVec.ofNat 8 op) (BitVec.ofNat 8 a) (BitVec.ofNat 16 b) (BitVec.ofNat 32 imm))
  else none

/-- All words of a list of options, in order, if each is there. -/
def allWords : List (Option Word64) → Option (List Word64)
  | [] => some []
  | none :: _ => none
  | some w :: ws =>
    match allWords ws with
    | some l => some (w :: l)
    | none => none

/-- `WRBUF space, addr+i, bi` for increasing `i` (30_encoding.md R55). -/
def asmStores (space : Nat) : Nat → List Nat → List (Option Word64)
  | _, [] => []
  | addr, b :: bs => asmWord 0x04 space addr b :: asmStores space (addr + 1) bs

/-- The words of a line (30_encoding.md R54, R55); none where an operand does not fit its field. -/
def AsmLine.words : AsmLine → Option (List Word64)
  | .rdreg reg => allWords [asmWord 0x01 reg 0 0]
  | .wrreg reg value => allWords [asmWord 0x02 reg 0 value]
  | .rdbuf space addr => allWords [asmWord 0x03 space addr 0]
  | .wrbuf space addr byte => allWords [asmWord 0x04 space addr byte]
  | .hcsm => allWords [asmWord 0x10 0 0 0]
  | .hvfy => allWords [asmWord 0x11 0 0 0]
  | .henc => allWords [asmWord 0x12 0 0 0]
  | .hdec => allWords [asmWord 0x13 0 0 0]
  | .fset flag v => allWords [asmWord 0x20 flag 0 v]
  | .fget flag => allWords [asmWord 0x21 flag 0 0]
  | .noflg => allWords [asmWord 0x22 0 0 0]
  | .menc plen => allWords [asmWord 0x30 0 plen 0]
  | .mdec => allWords [asmWord 0x31 0 0 0]
  | .raw w => if w < 2 ^ 64 then some [BitVec.ofNat 64 w] else none
  | .fclr flag => allWords [asmWord 0x20 flag 0 0]
  | .ldhdr s a w f d c =>
    allWords [asmWord 0x02 0 0 s, asmWord 0x02 1 0 a, asmWord 0x02 2 0 w, asmWord 0x02 3 0 f,
      asmWord 0x02 4 0 d, asmWord 0x02 5 0 c]
  | .ldpay bytes => allWords (asmStores 0 0 bytes)
  | .ldwire addr bytes => allWords (asmStores 1 addr bytes)

/-! ## Reading a line of text -/

/-- A decimal or hexadecimal digit's value. -/
def digitValue (c : Char) : Nat :=
  if '0' ≤ c ∧ c ≤ '9' then c.toNat - 48
  else if 'A' ≤ c ∧ c ≤ 'F' then c.toNat - 55
  else if 'a' ≤ c ∧ c ≤ 'f' then c.toNat - 87
  else 16

/-- Digits to a number in a base; none at a character that is no digit of the base. -/
def readDigits (base : Nat) : Nat → List Char → Option Nat
  | n, [] => some n
  | n, c :: cs => if digitValue c < base then readDigits base (n * base + digitValue c) cs else none

/-- A number: decimal, or hexadecimal with `0x` (30_encoding.md R54). -/
def readNumber : List Char → Option Nat
  | [] => none
  | '0' :: 'x' :: c :: cs => readDigits 16 0 (c :: cs)
  | c :: cs => readDigits 10 0 (c :: cs)

/-- A name from a list, or a number (30_encoding.md R54). -/
def readNamed (names : List (List Char × Nat)) (t : List Char) : Option Nat :=
  match List.lookup t names with
  | some n => some n
  | none => readNumber t

/-- Register names (30_encoding.md R49, R54). -/
def regNames : List (List Char × Nat) :=
  [(['S', 'E', 'Q'], 0), (['A', 'C', 'K', 'N'], 1), (['W', 'I', 'N'], 2), (['F', 'L', 'A', 'G', 'S'], 3),
   (['D', 'L', 'E', 'N'], 4), (['H', 'C', 'S', 'U', 'M'], 5), (['M', 'C', 'S', 'U', 'M'], 6),
   (['S', 'T', 'A', 'T', 'U', 'S'], 7), (['x', '0'], 0), (['x', '1'], 1), (['x', '2'], 2), (['x', '3'], 3),
   (['x', '4'], 4), (['x', '5'], 5), (['x', '6'], 6), (['x', '7'], 7)]

/-- Flag names (30_encoding.md R49, R54). -/
def flagNames : List (List Char × Nat) :=
  [(['S', 'Y', 'N'], 0), (['A', 'C', 'K'], 1), (['F', 'I', 'N'], 2), (['N', 'A', 'M', 'E'], 3)]

/-- Space names (30_encoding.md R49, R54). -/
def spaceNames : List (List Char × Nat) := [(['P', 'B', 'U', 'F'], 0), (['W', 'B', 'U', 'F'], 1)]

/-- A blank. -/
def isBlank (c : Char) : Bool := c == ' ' || c == '\t'

/-- Drop the blanks at both ends. -/
def trimBlanks (t : List Char) : List Char :=
  ((t.dropWhile isBlank).reverse.dropWhile isBlank).reverse

/-- Drop the comment, from the first `;` outside quotes (30_encoding.md R54). -/
def dropComment (quoted : Bool) : List Char → List Char
  | [] => []
  | c :: cs =>
    if c == ';' && !quoted then []
    else c :: dropComment (if c == '"' then !quoted else quoted) cs

/-- Split at commas (30_encoding.md R54). -/
def splitCommas : List Char → List (List Char)
  | [] => [[]]
  | c :: cs =>
    match splitCommas cs with
    | [] => [[c]]
    | t :: ts => if c == ',' then [] :: t :: ts else (c :: t) :: ts

/-- The operands after a mnemonic: none for a blank rest. -/
def readOperands (t : List Char) : List (List Char) :=
  if (trimBlanks t).isEmpty then [] else (splitCommas t).map trimBlanks

/-- All numbers of a list of texts, in order. -/
def readNumbers : List (List Char) → Option (List Nat)
  | [] => some []
  | t :: ts =>
    match readNumber t, readNumbers ts with
    | some n, some l => some (n :: l)
    | _, _ => none

/-- A quoted text as its ASCII bytes (30_encoding.md R55; 93_implementation_defined.md G4). -/
def readQuoted : List Char → Option (List Nat)
  | '"' :: cs =>
    match cs.reverse with
    | '"' :: body => if body.all (fun c => c.toNat < 128 && c != '"') then some (body.reverse.map Char.toNat) else none
    | _ => none
  | _ => none

/-- One operand read by `f`. -/
def one (f : List Char → Option Nat) (k : Nat → AsmLine) : List (List Char) → Option AsmLine
  | [x] => (f x).map k
  | _ => none

/-- Two operands read by `f` and `g`. -/
def two (f g : List Char → Option Nat) (k : Nat → Nat → AsmLine) : List (List Char) → Option AsmLine
  | [x, y] =>
    match f x, g y with
    | some a, some b => some (k a b)
    | _, _ => none
  | _ => none

/-- No operand. -/
def bare (l : AsmLine) : List (List Char) → Option AsmLine
  | [] => some l
  | _ => none

/-- The operands of `LDHDR`: six, or five with the checksum 0 (30_encoding.md R55, 92_eei_decisions.md D25). -/
def readLdhdr (ts : List (List Char)) : Option AsmLine :=
  match readNumbers ts with
  | some [s, a, w, f, d, c] => some (.ldhdr s a w f d c)
  | some [s, a, w, f, d] => some (.ldhdr s a w f d 0)
  | _ => none

/-- The operands of `LDWIRE`: an address and bytes (30_encoding.md R55). DESIGN CHOICE, log entry 12: R55 does not say
whether there may be no byte; an address only is accepted and assembles to no words. -/
def readLdwire (ts : List (List Char)) : Option AsmLine :=
  match readNumbers ts with
  | some (addr :: bytes) => some (.ldwire addr bytes)
  | _ => none

/-- The operands of `LDPAY`: a quoted text or bytes (30_encoding.md R55). DESIGN CHOICE, log entry 12: R55 does not say
whether there may be no byte; no operand, or an empty text, is accepted and assembles to no words. -/
def readLdpay (rest : List Char) : Option AsmLine :=
  match readQuoted (trimBlanks rest) with
  | some bytes => some (.ldpay bytes)
  | none => (readNumbers (readOperands rest)).map .ldpay

/-- A mnemonic and the text after it (30_encoding.md R54, R55). -/
def readForm (mnemonic rest : List Char) : Option AsmLine :=
  let reg := readNamed regNames
  let flag := readNamed flagNames
  let space := readNamed spaceNames
  let ops := readOperands rest
  match mnemonic with
  | ['R', 'D', 'R', 'E', 'G'] => one reg .rdreg ops
  | ['W', 'R', 'R', 'E', 'G'] => two reg readNumber .wrreg ops
  | ['R', 'D', 'B', 'U', 'F'] => two space readNumber .rdbuf ops
  | ['W', 'R', 'B', 'U', 'F'] =>
    match ops with
    | [x, y, z] =>
      match space x, readNumber y, readNumber z with
      | some a, some b, some c => some (.wrbuf a b c)
      | _, _, _ => none
    | _ => none
  | ['H', 'C', 'S', 'M'] => bare .hcsm ops
  | ['H', 'V', 'F', 'Y'] => bare .hvfy ops
  | ['H', 'E', 'N', 'C'] => bare .henc ops
  | ['H', 'D', 'E', 'C'] => bare .hdec ops
  | ['F', 'S', 'E', 'T'] => two flag readNumber .fset ops
  | ['F', 'G', 'E', 'T'] => one flag .fget ops
  | ['N', 'O', 'F', 'L', 'G'] => bare .noflg ops
  | ['M', 'E', 'N', 'C'] => one readNumber .menc ops
  | ['M', 'D', 'E', 'C'] => bare .mdec ops
  | ['.', 'w', 'o', 'r', 'd'] => one readNumber .raw ops
  | ['F', 'C', 'L', 'R'] => one flag .fclr ops
  | ['L', 'D', 'H', 'D', 'R'] => readLdhdr ops
  | ['L', 'D', 'P', 'A', 'Y'] => readLdpay rest
  | ['L', 'D', 'W', 'I', 'R', 'E'] => readLdwire ops
  | _ => none

/-- The words of one line of text: none where it is no line of R54 or R55, no words for a blank or comment line. -/
def assembleLine (line : List Char) : Option (List Word64) :=
  let t := trimBlanks (dropComment false line)
  if t.isEmpty then some []
  else (readForm (t.takeWhile fun c => !isBlank c) (t.dropWhile fun c => !isBlank c)).bind AsmLine.words

/-- The words of a program, line by line (30_encoding.md R54). -/
def assemble : List (List Char) → Option (List Word64)
  | [] => some []
  | l :: ls =>
    match assembleLine l, assemble ls with
    | some ws, some rest => some (ws ++ rest)
    | _, _ => none

end Sys2Proof.Machine
end

