-- ==== Sys2Proof/Tests/Slice0.lean ====
section
/-! SUPPORT. The model's own tests (expected results from the tables of 95_test_vectors.md, named by their ids there) and, for
every obligation with hypotheses, a witness that they can be met together. -/

namespace Sys2Proof.Tests

open Sys2Proof.Machine

/-! ## Well-formedness refuses -/

/-- 30_encoding.md R52 item 4: a value one above the widest of each narrow register. -/
theorem test_wf_refuses_wide_values :
    Instr.wf (.wrreg .ackn 0x10000) = false ∧ Instr.wf (.wrreg .win 0x10000) = false ∧
      Instr.wf (.wrreg .flags 0x100) = false ∧ Instr.wf (.wrreg .dlen 0x100) = false ∧
      Instr.wf (.wrreg .hcsum 0x10000) = false := by decide

/-- 30_encoding.md R52 item 6: the first address each buffer lacks. -/
theorem test_wf_refuses_absent_addresses :
    Instr.wf (.rdbuf .pbuf 1000) = false ∧ Instr.wf (.rdbuf .wbuf 1016) = false ∧
      Instr.wf (.wrbuf .pbuf 1000 0) = false ∧ Instr.wf (.wrbuf .wbuf 1016 0) = false := by decide

/-- The operands at their bounds are well-formed. -/
theorem test_wf_accepts_bounds :
    Instr.wf (.wrreg .seq 0xFFFFFFFF) = true ∧ Instr.wf (.wrreg .hcsum 0xFFFF) = true ∧
      Instr.wf (.wrreg .flags 0xFF) = true ∧ Instr.wf (.rdbuf .pbuf 999) = true ∧
      Instr.wf (.wrbuf .wbuf 1015 0xFF) = true ∧ Instr.wf (.menc 65535) = true := by decide

/-! ## Decoding (95_test_vectors.md 2.1) -/

theorem test_decode_access :
    decode 0x0100000000000000 = .ok (.rdreg .seq) ∧ decode 0x0107000000000000 = .ok (.rdreg .status) ∧
      decode 0x02000000FFFFFFFF = .ok (.wrreg .seq 0xFFFFFFFF) ∧
      decode 0x0205000000000006 = .ok (.wrreg .hcsum 6) ∧ decode 0x030003E700000000 = .ok (.rdbuf .pbuf 999) ∧
      decode 0x040103F7000000FF = .ok (.wrbuf .wbuf 1015 0xFF) := by decide

theorem test_decode_header_codec :
    decode 0x1000000000000000 = .ok .hcsm ∧ decode 0x1100000000000000 = .ok .hvfy ∧
      decode 0x1200000000000000 = .ok .henc ∧ decode 0x1300000000000000 = .ok .hdec := by decide

theorem test_decode_flags :
    decode 0x2000000000000001 = .ok (.fset .syn true) ∧ decode 0x2003000000000000 = .ok (.fset .name false) ∧
      decode 0x2102000000000000 = .ok (.fget .fin) ∧ decode 0x2200000000000000 = .ok .noflg := by decide

theorem test_decode_message_codec :
    decode 0x3000000D00000000 = .ok (.menc 13) ∧ decode 0x3000FFFF00000000 = .ok (.menc 65535) ∧
      decode 0x3100000000000000 = .ok .mdec := by decide

/-- I1, I3, I4, I8, I9, I11, I12, I14, I16, I18 to I20. -/
theorem test_decode_refuses_by_name :
    decode 0x0000000000000000 = .error .reservedOpcode ∧ decode 0x0500000000000000 = .error .reservedOpcode ∧
      decode 0x1400000000000000 = .error .reservedOpcode ∧ decode 0x0108000000000000 = .error .noRegister ∧
      decode 0x0100000100000000 = .error .unusedField ∧ decode 0x0206000000000001 = .error .notWritable ∧
      decode 0x0207000000000000 = .error .notWritable ∧ decode 0x0203000000000100 = .error .valueTooWide ∧
      decode 0x0205000000010000 = .error .valueTooWide ∧ decode 0x0302000000000000 = .error .noSpace ∧
      decode 0x030003E800000000 = .error .noAddress ∧ decode 0x030103F800000000 = .error .noAddress := by decide

/-- I22, I24, I28 to I30, I32, I34 to I37. -/
theorem test_decode_refuses_by_name_too :
    decode 0x0400000000000100 = .error .byteTooWide ∧ decode 0x1000000000000001 = .error .unusedField ∧
      decode 0x1300010000000000 = .error .unusedField ∧ decode 0x2004000000000001 = .error .noFlag ∧
      decode 0x2000000000000002 = .error .flagValue ∧ decode 0x2104000000000000 = .error .noFlag ∧
      decode 0x2200000000000001 = .error .unusedField ∧ decode 0x3001000000000000 = .error .unusedField ∧
      decode 0x3000012C00000001 = .error .unusedField ∧ decode 0x3100000000000001 = .error .unusedField := by decide

/-- 30_encoding.md R54 and R55: a pseudo-instruction, a string operand, a comment. -/
theorem test_assemble :
    assemble ["LDHDR 1,2,3,4,5".toList, "LDPAY \"hi\" ; text".toList, "FCLR NAME".toList, "MENC 13".toList] =
      some [0x0200000000000001, 0x0201000000000002, 0x0202000000000003, 0x0203000000000004, 0x0204000000000005,
        0x0205000000000000, 0x0400000000000068, 0x0400000100000069, 0x2003000000000000, 0x3000000D00000000] := by
  decide +kernel

/-- Log entry 12: the forms with no byte assemble to no words; a wrong operand count of another form is refused. -/
theorem test_assemble_no_bytes :
    assemble ["LDPAY".toList, "LDPAY \"\"".toList, "LDWIRE 5".toList] = some [] ∧
      assembleLine "LDWIRE".toList = none ∧ assembleLine "LDHDR 1,2,3,4".toList = none := by decide +kernel

/-! ## Small states -/

/-- The state an instruction gives. -/
def after (i : Instr) (s : State) : State :=
  match exec i s with
  | .next t => t
  | .fault _ => s
  | .refused _ => s

/-- The Header registers of S1 with this HCSUM (95_test_vectors.md HC4). -/
def headerState (hcsum : Half) : State :=
  { State.reset with seq := 1, ackn := 2, win := 3, flags := 4, dlen := 5, hcsum := hcsum }

/-- Frame M1 in WBUF, its message checksum given (95_test_vectors.md 2.6). -/
def frameState (mcsum : Word) : State :=
  State.reset.memWrite .wbuf 0 ([0, 0, 0, 0, 0, 0, 0, 0, 0, 0, 0xFF, 0xFF] ++ be32 mcsum ++ zeros 1000)

/-- The block after a PayloadTooLarge (95_test_vectors.md X1). -/
def haltedState : State := { State.reset with status := 0x31, responses := [⟨.payloadTooLarge, 0⟩] }

/-! ## Access commands (95_test_vectors.md 2.3) -/

/-- A3, and STATUS through X1. -/
theorem test_rdreg :
    (after (.rdreg .ackn) { State.reset with ackn := 0xFFFF }).responses = [⟨.ok, 0xFFFF⟩] ∧
      (after (.rdreg .status) haltedState).responses = [⟨.payloadTooLarge, 0⟩, ⟨.ok, 0x31⟩] := by decide

/-- A4: only the named register. -/
theorem test_wrreg : after (.wrreg .flags 0xFF) State.reset =
    { State.reset with flags := 0xFF, responses := [⟨.ok, 0⟩] } := by decide

/-- I13 as an instruction: nothing is written but STATUS. -/
theorem test_wrreg_too_wide : after (.wrreg .ackn 0x10000) State.reset =
    { State.reset with status := 0x41, responses := [⟨.illegalCommand, 0⟩] } := by decide

/-- A6. -/
theorem test_wrbuf : (after (.wrbuf .pbuf 999 0xAB) State.reset).pbuf = [(999, 0xAB)] ∧
    (after (.wrbuf .pbuf 999 0xAB) State.reset).wbuf = [] := by decide

/-- A7: the other buffer is separate, and the byte is zero-extended. -/
theorem test_rdbuf : (after (.rdbuf .wbuf 1015) (after (.wrbuf .wbuf 1015 0xCD) State.reset)).responses =
    [⟨.ok, 0⟩, ⟨.ok, 0xCD⟩] := by decide

/-! ## Checksums (95_test_vectors.md 2.2, 43_message_codec.md R88) -/

/-- H1, H4, H6, H16. -/
theorem test_hdrSum :
    hdrSum [0, 0, 0, 0, 0, 0, 0, 0, 0, 0] = 0xFFFF ∧
      hdrSum [0xFF, 0xFF, 0xFF, 0xFF, 0xFF, 0xFF, 0xFF, 0xFF, 0xFF, 0xFF] = 0x0000 ∧
      hdrSum [0xFF, 0xFF, 0xFF, 0xFF, 0xFF, 0xFF, 0x00, 0x02, 0x00, 0x00] = 0xFFFD ∧
      hdrSum [0x12, 0x34, 0x56, 0x78, 0x00, 0x00, 0x00, 0x64, 0x01, 0x00] = 0x95EF := by decide +kernel

/-- The check value of CRC-32/ISO-HDLC, over the ASCII digits 1 to 9. -/
theorem test_crc32 : crc32 [0x31, 0x32, 0x33, 0x34, 0x35, 0x36, 0x37, 0x38, 0x39] = 0xCBF43926 := by decide +kernel

/-! ## Header codec (95_test_vectors.md 2.4) -/

/-- HC5. -/
theorem test_hcsm : after .hcsm (headerState 6) = { headerState 0xFBF4 with responses := [⟨.ok, 0xFBF4⟩] } := by
  decide +kernel

/-- HC4 and HC6. -/
theorem test_hvfy : (after .hvfy (headerState 6)).responses = [⟨.ok, 0⟩] ∧
    (after .hvfy (headerState 0xFBF4)).responses = [⟨.ok, 1⟩] := by decide +kernel

/-- HC8. -/
theorem test_henc : (after .henc (headerState 6)).memRead .wbuf 0 12 = [0, 0, 0, 1, 0, 2, 0, 3, 4, 5, 0, 6] := by
  decide +kernel

/-- HC10. -/
theorem test_hdec : (after .hdec (State.reset.memWrite .wbuf 0
      [0xDE, 0xAD, 0xBE, 0xEF, 0x12, 0x34, 0x56, 0x78, 0x9A, 0xBC, 0xDE, 0xF0])).header =
    ⟨0xDEADBEEF, 0x1234, 0x5678, 0x9A, 0xBC, 0xDEF0⟩ := by decide +kernel

/-! ## Flags (95_test_vectors.md 2.5) -/

/-- F8 and F9. -/
theorem test_fset : (after (.fset .fin true) { State.reset with flags := 0xF0 }).flags = 0xF4 ∧
    (after (.fset .name false) { State.reset with flags := 0xFF }).flags = 0xF7 := by decide

/-- F10. -/
theorem test_fget : (after (.fget .fin) { State.reset with flags := 0x05 }).responses = [⟨.ok, 1⟩] ∧
    (after (.fget .ack) { State.reset with flags := 0x05 }).responses = [⟨.ok, 0⟩] := by decide

/-- F11 and F12. -/
theorem test_noflg : (after .noflg State.reset).responses = [⟨.ok, 1⟩] ∧
    (after .noflg { State.reset with flags := 0x80 }).responses = [⟨.ok, 0⟩] := by decide

/-! ## Message codec (95_test_vectors.md 2.6, 2.7) -/

/-- M2: the old DLEN and HCSUM do not enter, the frame's first 29 bytes, its last one padding. -/
theorem test_menc :
    (match exec (.menc 13) ((headerState 6).memWrite .pbuf 0
        [0x73, 0x68, 0x6F, 0x72, 0x74, 0x20, 0x70, 0x61, 0x79, 0x6C, 0x6F, 0x61, 0x64]) with
      | .next t => t.memRead .wbuf 0 29 == [0x00, 0x00, 0x00, 0x01, 0x00, 0x02, 0x00, 0x03, 0x04, 0x0D, 0xFB, 0xEC,
          0x4F, 0xB3, 0x0C, 0xBF, 0x73, 0x68, 0x6F, 0x72, 0x74, 0x20, 0x70, 0x61, 0x79, 0x6C, 0x6F, 0x61, 0x64] &&
          t.readByte .wbuf 1015 == 0 && t.dlen == 13
      | .fault _ => false
      | .refused _ => false) = true := by decide +kernel

/-- X1. -/
theorem test_menc_too_long : after (.menc 256) State.reset =
    { State.reset with status := 0x31, responses := [⟨.payloadTooLarge, 0⟩] } := by decide

/-- M12. -/
theorem test_mdec :
    (match exec .mdec (frameState 0x069ADC5A) with
      | .next t => t.responses == [⟨.ok, 0⟩] && t.hcsum == 0xFFFF && t.mcsum == 0x069ADC5A &&
          t.memRead .pbuf 0 1000 == zeros 1000
      | .fault _ => false
      | .refused _ => false) = true := by decide +kernel

/-- M11: a recoverable error writes CAUSE and nothing else. -/
theorem test_mdec_bad_header : after .mdec (State.reset.memWrite .wbuf 0 (zeros 1016)) =
    { State.reset.memWrite .wbuf 0 (zeros 1016) with
      status := 0x10, responses := [⟨.headerChecksumMismatch, 0⟩] } := by decide +kernel

/-! ## The processing order (95_test_vectors.md 2.7, 2.8) -/

/-- X8: IllegalCommand outranks PayloadTooLarge. -/
theorem test_step_illegal :
    (match step (State.reset.withFetchWord 64 0x3000012C00000001) with
      | .next t => t.responses == [⟨.illegalCommand, 0⟩] && t.status == 0x41
      | .fault _ => false
      | .refused _ => false) = true := by decide

/-- X6: Halted outranks IllegalCommand, and CAUSE keeps 3. -/
theorem test_step_halted :
    (match step (haltedState.withFetchWord 64 0) with
      | .next t => t.responses == [⟨.payloadTooLarge, 0⟩, ⟨.halted, 0⟩] && t.status == 0x31
      | .fault _ => false
      | .refused _ => false) = true := by decide

/-- Z1: reset leaves the fatal condition. -/
theorem test_step_reset :
    (match step { haltedState with pending := [.reset 1] } with
      | .next t => t.status == 0 && t.responses == [] && t.fill == 1
      | .fault _ => false
      | .refused _ => false) = true := by decide

/-! ## Witnesses: the hypotheses of each obligation can be met -/

theorem witness_EncodeThenDecodeGivesTheInstructionBack :
    Instr.wf (.wrreg .hcsum 0xFFFF) = true ∧ Instr.wf (.rdbuf .pbuf 999) = true ∧ Instr.wf (.wrbuf .wbuf 1015 0xFF) = true ∧
      Instr.wf (.menc 0xFFFF) = true := by decide

theorem witness_DecodedWordIsTheInstructionsOnlyWord : decode 0x040103F7000000FF = .ok (.wrbuf .wbuf 1015 0xFF) := by
  decide

theorem witness_IllegalWordsRaiseIllegalCommand :
    ¬ LegalWord 0x0204000000000100 ∧ LegalWord 0x02040000000000FF ∧ State.reset.fatal = false := by
  refine ⟨?_, ?_, ?_⟩ <;> decide

theorem witness_BufferAddressesAreRangeChecked :
    (opNum 0x030003E800000000 = 0x03 ∧ aNum 0x030003E800000000 = 0 ∧ ¬ bNum 0x030003E800000000 < 1000) ∧
      (opNum 0x040103F8000000FF = 0x04 ∧ aNum 0x040103F8000000FF = 1 ∧ ¬ bNum 0x040103F8000000FF < 1016) ∧
      (opNum 0x0302000000000000 = 0x03 ∧ aNum 0x0302000000000000 = 2) := by decide

theorem witness_StepExecutesThePresentedCommand :
    (State.reset.present 0x0107000000000000).pending = [.command 0x0107000000000000] ∧
      decode 0x0107000000000000 = .ok (.rdreg .status) := by decide

theorem witness_StepIdlesWhenNothingIsPresented : State.reset.pending = [] := by decide

theorem witness_ResetEventClearsTheBlock :
    ({ haltedState with pending := [.reset 7] } : State).pending = .reset 7 :: [] := by decide

theorem witness_WrregWritesItsRegisterOnly :
    State.reset.fatal = false ∧ (0xFFFF : Word).toNat < 2 ^ 16 ∧ (0xFF : Word).toNat < 2 ^ 8 := by decide

theorem witness_IllFormedOperandsRaiseIllegalCommand :
    Instr.wf (.rdbuf .pbuf 1000) = false ∧ Instr.wf (.wrreg .dlen 256) = false ∧ State.reset.fatal = false := by decide

theorem witness_RdbufAnswersTheByte : (999 : Half).toNat < 1000 ∧ (1015 : Half).toNat < 1016 := by decide

theorem witness_WrbufWritesOneByteOnly :
    State.reset.fatal = false ∧ (999 : Half).toNat < 1000 ∧ (1015 : Half).toNat < 1016 ∧
      ¬ ((Space.wbuf = .pbuf) ∧ (999 : Nat) = 999) ∧ ¬ ((Space.pbuf = .pbuf) ∧ (998 : Nat) = 999) := by decide

theorem witness_ReadsHaveNoSideEffects :
    (exec (.rdreg .status) haltedState = .next (after (.rdreg .status) haltedState)) ∧
    (Space.pbuf.holds 999 = true ∧ exec (.rdbuf .pbuf 999) State.reset = .next (after (.rdbuf .pbuf 999) State.reset)) ∧
    (Instr.wf (.wrbuf .wbuf 1015 1) = true ∧
      exec (.wrbuf .wbuf 1015 1) State.reset = .next (after (.wrbuf .wbuf 1015 1) State.reset) ∧
      exec (.wrbuf .wbuf 1015 1) (after (.wrbuf .wbuf 1015 1) State.reset) =
        .next (after (.wrbuf .wbuf 1015 1) (after (.wrbuf .wbuf 1015 1) State.reset))) := by
  refine ⟨rfl, ⟨by decide, rfl⟩, by decide, rfl, rfl⟩

theorem witness_OnesComplementAdditionLaws : (0x1234 : Half) ≠ 0 := by decide

/-- H7 and H8: the same words in another order; H1: all words zero; two sequences alike in their first ten bytes. -/
theorem witness_HeaderSumIsTheComplementOfTheFoldedSum :
    ((List.range 5).map (hdrWord [0, 0, 0xFF, 0xFF, 0, 0, 0, 0, 0, 0])).Perm
      ((List.range 5).map (hdrWord [0xFF, 0xFF, 0, 0, 0, 0, 0, 0, 0, 0])) ∧
    ((List.range 5).map fun i => (byteAt (zeros 10) (2 * i)).toNat * 256 + (byteAt (zeros 10) (2 * i + 1)).toNat).sum = 0 ∧
    ∀ i < 10, byteAt (zeros 10 ++ [1]) i = byteAt (zeros 10) i := by
  refine ⟨?_, by decide, by decide⟩
  exact .swap _ _ _

theorem witness_OneChangedByteChangesTheHeaderSum : DifferInOneByte (zeros 10) (zeros 9 ++ [1]) := by
  refine ⟨rfl, 9, by decide, by decide, fun j hj => ?_⟩
  by_cases h : j < 10
  · have : j = 0 ∨ j = 1 ∨ j = 2 ∨ j = 3 ∨ j = 4 ∨ j = 5 ∨ j = 6 ∨ j = 7 ∨ j = 8 := by omega
    rcases this with rfl | rfl | rfl | rfl | rfl | rfl | rfl | rfl | rfl <;> decide
  · simp [byteAt, zeros, h]

/-- For the statements about a non-fatal block: HCSM, HVFY, HENC, HDEC, the flag commands, MENC and MDEC. -/
theorem witness_nonfatal : State.reset.fatal = false ∧ (headerState 6).fatal = false := by decide

theorem witness_HcsmStoresTheComputedChecksum : (headerState 6).fatal = false := by decide

theorem witness_HvfyComparesStoredWithRecomputed : (headerState 6).fatal = false := by decide

theorem witness_HencPacksTheRegistersBigEndian : (headerState 6).fatal = false := by decide

theorem witness_HdecUnpacksWithoutValidation : (headerState 6).fatal = false := by decide

theorem witness_HeaderEncodingRoundTrips : (headerState 6).fatal = false ∧ (zeros 12).length = 12 := by decide

theorem witness_ComputedHeaderVerifies :
    State.reset.fatal = false ∧ exec .hcsm State.reset = .next (after .hcsm State.reset) ∧
      (255 : Half).toNat ≤ 255 ∧ exec (.menc 255) State.reset = .next (after (.menc 255) State.reset) := by
  refine ⟨by decide, rfl, by decide, rfl⟩

theorem witness_FsetWritesOneBitOfFlags : (headerState 6).fatal = false := by decide

theorem witness_FgetAnswersOneBitOfFlags : (headerState 6).fatal = false := by decide

theorem witness_NoflgTestsTheWholeFlagsByte : (headerState 6).fatal = false := by decide

theorem witness_FlagAlgebra :
    (headerState 6).fatal = false ∧ Flag.ack ≠ .syn ∧ (headerState 6).flags.extractLsb' 4 4 = 0 ∧
      (0x0F : Byte).toNat < 16 := by decide

theorem witness_MencWritesTheFrame :
    State.reset.fatal = false ∧ (0 : Half).toNat ≤ 255 ∧ (255 : Half).toNat ≤ 255 := by decide

theorem witness_MencRefusesLongPayloads :
    State.reset.fatal = false ∧ 255 < (256 : Half).toNat ∧ 255 < (0xFFFF : Half).toNat := by decide

/-- M12: M1's frame. -/
theorem witness_MdecLoadsAValidFrame :
    (frameState 0x069ADC5A).fatal = false ∧ WireHeaderValid (frameState 0x069ADC5A) ∧
      WireMessageValid (frameState 0x069ADC5A) := by
  refine ⟨by decide, ?_, ?_⟩
  · unfold WireHeaderValid
    decide +kernel
  · unfold WireMessageValid
    decide +kernel

/-- M11's frame of zeros, and M1's frame with another message checksum. -/
theorem witness_MdecRejectsBadFrames :
    ((State.reset.memWrite .wbuf 0 (zeros 1016)).fatal = false ∧
      ¬ WireHeaderValid (State.reset.memWrite .wbuf 0 (zeros 1016))) ∧
    ((frameState 0).fatal = false ∧ WireHeaderValid (frameState 0) ∧ ¬ WireMessageValid (frameState 0)) := by
  refine ⟨⟨by decide, ?_⟩, by decide, ?_, ?_⟩
  · unfold WireHeaderValid
    decide +kernel
  · unfold WireHeaderValid
    decide +kernel
  · unfold WireMessageValid
    decide +kernel

theorem witness_MencThenMdecRoundTrips :
    State.reset.fatal = false ∧ (0 : Half).toNat ≤ 255 ∧ (255 : Half).toNat ≤ 255 := by decide

/-- A changed byte at the bounds of each range of 43_message_codec.md R94. -/
theorem witness_AnyChangedByteOfAFrameIsDetected :
    State.reset.fatal = false ∧ State.reset.msgSum = .crc32 ∧
      exec (.menc 255) State.reset = .next (after (.menc 255) State.reset) ∧
      ∀ a ∈ [0, 11, 12, 15, 16, 1015], a < 1016 ∧
        (after (.menc 255) State.reset).readByte .wbuf a + 1 ≠ (after (.menc 255) State.reset).readByte .wbuf a := by
  refine ⟨by decide, by decide, rfl, fun a ha => ⟨?_, ?_⟩⟩
  · revert a
    decide
  · intro h
    generalize (after (.menc 255) State.reset).readByte .wbuf a = x at h
    revert x
    decide

theorem witness_CrcDetectsEveryFourByteBurst :
    ([0, 0, 0, 1] : List Byte).length = ([0, 0, 0, 0] : List Byte).length ∧ ([0, 0, 0, 1] : List Byte).length ≤ 4 ∧
      ([0, 0, 0, 1] : List Byte) ≠ [0, 0, 0, 0] := by decide

theorem witness_CrcDifferenceDependsOnTheByteDifference :
    List.zipWith (· ^^^ ·) ([1, 2] : List Byte) [3, 4] = List.zipWith (· ^^^ ·) ([0, 0] : List Byte) [2, 6] := by decide

theorem witness_DefaultMsgSumIsByteSensitive :
    DifferInOneByte (zeros 12 ++ zeros 1000) ((1 :: zeros 11) ++ zeros 1000) := by
  refine ⟨by simp, 0, by simp, show (0 : Byte) ≠ 1 by decide, fun j hj => ?_⟩
  obtain ⟨k, rfl⟩ : ∃ k, j = k + 1 := ⟨j - 1, by omega⟩
  rw [show zeros 12 = 0 :: zeros 11 from rfl]
  simp [byteAt]

theorem witness_HaltedBlockOnlyReads :
    haltedState.fatal = true ∧ decode 0x0107000000000000 = .ok (.rdreg .status) ∧
      decode 0x030103F700000000 = .ok (.rdbuf .wbuf 1015) ∧
      (∀ r, decode 0x0108000000000000 ≠ .ok (.rdreg r)) ∧
      (∀ sp addr, decode 0x0108000000000000 ≠ .ok (.rdbuf sp addr)) ∧ step haltedState = .next haltedState := by
  have h : decode 0x0108000000000000 = .error .noRegister := by decide
  refine ⟨by decide, by decide, by decide, fun r hr => ?_, fun sp addr hr => ?_, rfl⟩ <;>
    · rw [h] at hr
      cases hr

theorem witness_ErrorsAreRaisedExactlyWhenTheirCauseHolds :
    State.reset.fatal = false ∧ ¬ LegalWord 0 ∧
      (LegalWord 0x3000010000000000 ∧ opNum 0x3000010000000000 = 0x30 ∧ 255 < bNum 0x3000010000000000) ∧
      (LegalWord 0x3100000000000000 ∧ opNum 0x3100000000000000 = 0x31) := by
  refine ⟨?_, ?_, ⟨?_, ?_, ?_⟩, ?_, ?_⟩ <;> decide

/-- A response of each of the six codes: X-rows and M-rows of 95_test_vectors.md. -/
theorem witness_ErrorsWriteStatusOnly :
    (∃ t, step (State.reset.present 0x2200000000000000) = .next t ∧ t.responses = State.reset.responses ++ [⟨.ok, 1⟩]) ∧
    (∃ t, step ((State.reset.memWrite .wbuf 0 (zeros 1016)).present 0x3100000000000000) = .next t ∧
      t.responses = [] ++ [⟨.headerChecksumMismatch, 0⟩]) ∧
    (∃ t, step ((frameState 0).present 0x3100000000000000) = .next t ∧
      t.responses = [] ++ [⟨.messageChecksumMismatch, 0⟩]) ∧
    (∃ t, step (State.reset.present 0x3000010000000000) = .next t ∧ t.responses = [] ++ [⟨.payloadTooLarge, 0⟩]) ∧
    (∃ t, step (State.reset.present 0) = .next t ∧ t.responses = [] ++ [⟨.illegalCommand, 0⟩]) ∧
    (∃ t, step (haltedState.present 0) = .next t ∧ t.responses = haltedState.responses ++ [⟨.halted, 0⟩]) := by
  have hd : decode 0x3100000000000000 = .ok .mdec := by decide
  have h1 := witness_MdecRejectsBadFrames
  refine ⟨⟨_, rfl, by decide⟩, ?_, ?_, ⟨_, rfl, by decide⟩, ⟨_, rfl, by decide⟩, ⟨_, rfl, by decide⟩⟩
  · refine ⟨_, by rw [step_present, processWord_ok hd, exec_run rfl h1.1.1], ?_⟩
    have : (State.reset.memWrite .wbuf 0 (zeros 1016)).headerCheck = false :=
      Bool.eq_false_iff.2 fun h => h1.1.2 ((State.headerCheck_iff _).1 h)
    rw [actionOf, if_pos this]
    rfl
  · refine ⟨_, by rw [step_present, processWord_ok hd, exec_run rfl h1.2.1], ?_⟩
    have hh : (frameState 0).headerCheck = true := (State.headerCheck_iff _).2 h1.2.2.1
    have hm : (frameState 0).messageCheck = false :=
      Bool.eq_false_iff.2 fun h => h1.2.2.2 ((State.messageCheck_iff _).1 h)
    rw [actionOf, if_neg (fun h => by rw [hh] at h; cases h), if_pos hm]
    rfl

/-- A state that is not the reset state, halted, with bytes in both buffers. -/
theorem witness_StepKeepsBuffersAndStatusLegal :
    BlockInv { haltedState with pbuf := [(0, 1), (999, 2)], wbuf := [(1015, 3)] } := by
  unfold BlockInv
  decide

theorem witness_StepKeepsStatusTrueToTheRun : RunInv haltedState := by
  refine ⟨⟨fun _ => ⟨⟨.payloadTooLarge, 0⟩, by decide, by decide⟩, fun _ => by decide⟩, by decide, by decide⟩

/-- The host's duty for each of the four commands that read a buffer, with the whole frame in WBUF and one byte in
PBUF. -/
theorem witness_UnspecifiedBytesDoNotEnterADutifulCommand :
    CommandDuty .mdec (frameState 0) ∧ CommandDuty .hdec (frameState 0) ∧ CommandDuty (.rdbuf .wbuf 1015) (frameState 0) ∧
      CommandDuty (.menc 1) (State.reset.memWrite .pbuf 0 [7]) := by
  have h : ∀ a n, a + n ≤ 1016 → Written (frameState 0) .wbuf a n := by
    intro a n hn i hi
    have hl : ([0, 0, 0, 0, 0, 0, 0, 0, 0, 0, 0xFF, 0xFF] ++ be32 0 ++ zeros 1000 : List Byte).length = 1016 := by simp
    have hb : (frameState 0).buffer .wbuf = Memory.store [] 0
        ([0, 0, 0, 0, 0, 0, 0, 0, 0, 0, 0xFF, 0xFF] ++ be32 0 ++ zeros 1000) := rfl
    rw [hb, Memory.byte?_store, if_pos (by omega), List.getElem?_eq_getElem (by omega)]
    rfl
  refine ⟨h 0 1016 (by decide), h 0 12 (by decide), h 1015 1 (by decide), ?_⟩
  intro i hi
  have : i = 0 := by
    have : i < 1 := hi
    omega
  subst this
  decide

theorem witness_OnlyTheNamedCommandsWrite :
    exec (.wrreg .seq 1) State.reset = .next (after (.wrreg .seq 1) State.reset) ∧
      (after (.wrreg .seq 1) State.reset).seq ≠ State.reset.seq ∧
      exec (.wrbuf .pbuf 0 1) State.reset = .next (after (.wrbuf .pbuf 0 1) State.reset) ∧
      (after (.wrbuf .pbuf 0 1) State.reset).pbuf ≠ State.reset.pbuf := by
  refine ⟨rfl, by decide, rfl, by decide⟩

end Sys2Proof.Tests
end

section
/-! PROOFS. The state right after reset (10_state.md R23): what its registers read, the checksum its Header would need, and
what HVFY therefore answers. -/

namespace Sys2Proof.Machine

/-! ## The fields of the reset state -/

@[simp] theorem State.reset_hcsum : State.reset.hcsum = 0 := rfl

@[simp] theorem State.reset_fatal : State.reset.fatal = false := State.resetEvent_fatal State.reset 0

@[simp] theorem State.reset_cause : State.reset.cause = 0 := State.resetEvent_cause State.reset 0

/-- 10_state.md R23, its first sentence. -/
@[simp] theorem State.reset_readReg (r : Reg) : State.reset.readReg r = 0 := by
  cases r <;> rfl

/-! ## The checksum of zero bytes -/

@[simp] theorem hdrWord_zeros (n i : Nat) : hdrWord (zeros n) i = 0 := by
  rw [hdrWord, byteAt_zeros, byteAt_zeros]
  rfl

/-- 41_header_codec.md R68: five zero words sum to zero, whose complement is all ones. -/
@[simp] theorem hdrSum_zeros (n : Nat) : hdrSum (zeros n) = 0xFFFF := by
  have sum_zero : ocAdd16 0 0 = 0 := rfl
  simp only [hdrSum, List.foldl, hdrWord_zeros, sum_zero]
  decide

theorem State.reset_hdrBytes10 : hdrBytes10 State.reset.header = zeros 10 := rfl

theorem State.reset_headerSum : State.reset.headerSum = 0xFFFF := by
  rw [State.headerSum, State.reset_hdrBytes10, hdrSum_zeros]

/-! ## HVFY on a wrong checksum -/

/-- 41_header_codec.md R71: a stored checksum that is not the recomputed one is no error, it is the answer 0. -/
theorem exec_hvfy_of_ne {s : State} (hf : s.fatal = false) (hne : s.hcsum ≠ s.headerSum) :
    exec .hvfy s = .next (s.respond 0) := by
  have hcmp : (s.hcsum == s.headerSum) = false := beq_false_of_ne hne
  rw [exec_run rfl hf, actionOf, hcmp]
  rfl

/-- The reset Header is not self-consistent (10_state.md R23). -/
theorem State.reset_hcsum_ne_headerSum : State.reset.hcsum ≠ State.reset.headerSum := by
  rw [State.reset_hcsum, State.reset_headerSum]
  decide

/-- Settles O9: HCSUM is 0 after reset where the zero Header needs 0xFFFF, so HVFY answers 0. -/
theorem registersAreZeroAfterReset : Obligations.RegistersAreZeroAfterReset := by
  have hvfy : exec .hvfy State.reset = .next (State.reset.respond 0) :=
    exec_hvfy_of_ne State.reset_fatal State.reset_hcsum_ne_headerSum
  exact ⟨State.reset_readReg, State.reset_fatal, State.reset_cause, hdrSum_zeros 10, State.reset.respond 0, hvfy, rfl⟩

end Sys2Proof.Machine
end

section
/-! PROOFS. The fold of a list of commands (20_memory.md R35): a command neither reads nor writes what the host presents
after it, so a run over a list of words is the fold of `wordEffect`. -/

namespace Sys2Proof.Machine

/-! ## No command reads or writes what is presented after it -/

theorem State.memWrite_withPending (s : State) (p : List HostInput) (sp : Space) (a : Nat) (bs : List Byte) :
    { s with pending := p }.memWrite sp a bs = { s.memWrite sp a bs with pending := p } := by
  cases sp <;> rfl

theorem State.writeReg_withPending (s : State) (p : List HostInput) (r : HdrReg) (v : Word) :
    { s with pending := p }.writeReg r v = { s.writeReg r v with pending := p } := by
  cases r <;> rfl

theorem State.readReg_withPending (s : State) (p : List HostInput) (r : Reg) :
    { s with pending := p }.readReg r = s.readReg r := by
  cases r <;> rfl

theorem State.readByte_withPending (s : State) (p : List HostInput) (sp : Space) (a : Nat) :
    { s with pending := p }.readByte sp a = s.readByte sp a := by
  cases sp <;> rfl

theorem State.mencWrites_withPending (s : State) (p : List HostInput) (plen : Half) :
    { s with pending := p }.mencWrites plen = { s.mencWrites plen with pending := p } := by
  simp only [State.mencWrites, withNumeral_eq]
  rfl

theorem actionOf_withPending (i : Instr) (s : State) (p : List HostInput) :
    actionOf i { s with pending := p } = { actionOf i s with pending := p } := by
  cases i with
  | rdreg r => rw [actionOf, State.readReg_withPending]; rfl
  | wrreg r v => rw [actionOf, State.writeReg_withPending]; rfl
  | rdbuf sp addr => rw [actionOf, State.readByte_withPending]; rfl
  | wrbuf sp addr x => rw [actionOf, State.memWrite_withPending]; rfl
  | menc plen =>
    rw [actionOf, actionOf, State.mencWrites_withPending]
    split <;> rfl
  | mdec =>
    have hh : { s with pending := p }.headerCheck = s.headerCheck := rfl
    have hm : { s with pending := p }.messageCheck = s.messageCheck := rfl
    rw [actionOf, actionOf, hh, hm]
    split
    · rfl
    · split <;> rfl
  | hcsm => rfl
  | hvfy => rfl
  | henc => rfl
  | hdec => rfl
  | fset f v => rfl
  | fget f => rfl
  | noflg => rfl

theorem State.process_withPending (s : State) (p : List HostInput) (isRead legal : Bool) {act : State → State}
    (hact : act { s with pending := p } = { act s with pending := p }) :
    { s with pending := p }.process isRead legal act = { s.process isRead legal act with pending := p } := by
  have hf : { s with pending := p }.fatal = s.fatal := rfl
  rw [State.process, State.process, hf, hact]
  split
  · rfl
  · split <;> rfl

/-! ## One command, then a list of them -/

/-- 70_reset_and_hazards.md R129: a word always has its effect, and the presented inputs pass through it unchanged. -/
theorem processWord_withPending (w : Word64) (s : State) (p : List HostInput) :
    processWord w { s with pending := p } = .next { wordEffect s w with pending := p } := by
  cases h : decode w with
  | error e =>
    have hs : wordEffect s w = s.illegalWord := by rw [wordEffect, processWord_error h]
    rw [processWord_error h, hs, State.illegalWord, State.illegalWord, State.process_withPending s p false false rfl]
  | ok i =>
    have hs : wordEffect s w = s.process (isReadInstr i) i.wf (actionOf i) := by
      rw [wordEffect, processWord_ok h, exec_eq_process]
    rw [processWord_ok h, hs, exec_eq_process, State.process_withPending s p _ _ (actionOf_withPending i s p)]

theorem step_command (s : State) (w : Word64) (rest : List HostInput) :
    step { s with pending := .command w :: rest } = .next { wordEffect s w with pending := rest } :=
  processWord_withPending w s rest

theorem run_commands (ws : List Word64) (later : List HostInput) (s : State) :
    core.run ws.length { s with pending := ws.map .command ++ later } =
      .next { ws.foldl wordEffect s with pending := later } := by
  induction ws generalizing s with
  | nil => rfl
  | cons w ws ih =>
    have hstep : core.step { s with pending := (w :: ws).map .command ++ later } =
        .next { wordEffect s w with pending := ws.map .command ++ later } := step_command s w _
    rw [List.length_cons, run_succ hstep, List.foldl_cons]
    exact ih (wordEffect s w)

/-- Settles O12, by induction on the list: each step takes the head and leaves the rest presented. -/
theorem runIsTheFoldOfItsCommands : Obligations.RunIsTheFoldOfItsCommands := by
  intro s ws later
  exact run_commands ws later { s with pending := [] }

end Sys2Proof.Machine
end

section
/-! PROOFS. The range check of RDBUF and WRBUF (20_memory.md R34): their decoders accept only addresses that exist, and
a word that is no legal command touches no buffer. -/

namespace Sys2Proof.Machine

/-! ## What the two decoders refuse -/

theorem Space.addressExists {a : Byte} {b : Half} {sp : Space} (hs : Space.ofIndex? a = some sp)
    (hb : sp.holds b = true) : AddressExists a.toNat b.toNat := by
  rw [Space.ofIndex?] at hs
  split at hs
  next ha =>
    cases hs
    exact .inl ⟨ha, (holds_pbuf_iff b).1 hb⟩
  next ha =>
    cases hs
    exact .inr ⟨ha, (holds_wbuf_iff b).1 hb⟩
  next => cases hs

section
variable {a : Byte} {b : Half} {imm : Word} {i : Instr}

theorem decodeRdbuf_addressExists (h : decodeRdbuf a b imm = .ok i) : AddressExists a.toNat b.toNat := by
  rw [decodeRdbuf, needZero] at h
  split at h
  · split at h
    next sp hs =>
      split at h
      · exact Space.addressExists hs ‹_›
      · cases h
    next => cases h
  · cases h

theorem decodeWrbuf_addressExists (h : decodeWrbuf a b imm = .ok i) : AddressExists a.toNat b.toNat := by
  rw [decodeWrbuf] at h
  split at h
  next sp hs =>
    split at h
    · exact Space.addressExists hs ‹_›
    · cases h
  next => cases h

end

/-- An RDBUF or WRBUF word that decodes names an address that exists. -/
theorem decode_bufferOp_addressExists {w : Word64} {i : Instr} (hop : opNum w = 0x03 ∨ opNum w = 0x04)
    (h : decode w = .ok i) : AddressExists (aNum w) (bNum w) := by
  rw [← toNat_aField, ← toNat_bField]
  rw [decode, decodeFields, toNat_opField] at h
  rcases hop with hop | hop <;> rw [hop] at h
  · exact decodeRdbuf_addressExists h
  · exact decodeWrbuf_addressExists h

/-! ## A word that is no legal command -/

theorem State.illegalWord_of_nonfatal {s : State} (hf : s.fatal = false) : s.illegalWord = s.raise .illegalCommand :=
  State.process_illegal hf false id

theorem State.illegalWord_of_fatal {s : State} (hf : s.fatal = true) : s.illegalWord = s.refuseHalted :=
  State.process_halted hf rfl id

@[simp] theorem State.illegalWord_pbuf (s : State) : s.illegalWord.pbuf = s.pbuf := by
  cases hf : s.fatal
  · rw [State.illegalWord_of_nonfatal hf, State.raise_pbuf]
  · rw [State.illegalWord_of_fatal hf, State.refuseHalted_pbuf]

@[simp] theorem State.illegalWord_wbuf (s : State) : s.illegalWord.wbuf = s.wbuf := by
  cases hf : s.fatal
  · rw [State.illegalWord_of_nonfatal hf, State.raise_wbuf]
  · rw [State.illegalWord_of_fatal hf, State.refuseHalted_wbuf]

/-- The response, CAUSE and FATAL of IllegalCommand (60_exceptions.md R104). -/
theorem State.raise_illegalCommand_report (s : State) :
    (s.raise .illegalCommand).responses = s.responses ++ [⟨.illegalCommand, 0⟩] ∧
      (s.raise .illegalCommand).cause = 4 ∧ (s.raise .illegalCommand).fatal = true := by
  refine ⟨rfl, ?_, ?_⟩
  · rw [State.cause_raise]
    decide
  · rw [State.fatal_raise]
    exact Bool.or_true _

/-- Settles O4: such a word decodes to nothing, so the step answers it as an illegal word. -/
theorem bufferAddressesAreRangeChecked : Obligations.BufferAddressesAreRangeChecked := by
  intro s w hop habsent
  have hno : ∀ i, decode w ≠ .ok i := fun i hi => habsent (decode_bufferOp_addressExists hop hi)
  refine ⟨hno, s.illegalWord, ?_, s.illegalWord_pbuf, s.illegalWord_wbuf, fun hf => ?_⟩
  · cases h : decode w with
    | ok i => exact absurd h (hno i)
    | error e => rw [step_present, processWord_error h]
  · rw [State.illegalWord_of_nonfatal hf]
    exact s.raise_illegalCommand_report

end Sys2Proof.Machine
end

section
/-! PROOFS. Reads have no side effect and repeat, and a write done twice is the write done once (20_memory.md R33): a
response enters no register and no byte, and each write absorbs itself. -/

namespace Sys2Proof.Machine

/-! ## A response enters no register and no byte -/

@[simp] theorem State.answer_readReg (s : State) (r : Response) (x : Reg) : (s.answer r).readReg x = s.readReg x := by
  cases x <;> rfl

@[simp] theorem State.answer_readByte (s : State) (r : Response) (sp : Space) (a : Nat) :
    (s.answer r).readByte sp a = s.readByte sp a := by
  cases sp <;> rfl

@[simp] theorem State.answer_header (s : State) (r : Response) : (s.answer r).header = s.header := rfl

/-! ## A well-formed command -/

/-- 60_exceptions.md R105, R107: what remains of the processing order when the command is legal. -/
theorem exec_of_wf {i : Instr} (hi : i.wf = true) (s : State) :
    exec i s = .next (if s.fatal && !isReadInstr i then s.refuseHalted else actionOf i s) := by
  rw [exec_eq_process, State.process, hi, Bool.and_true]
  rfl

/-- A legal RDREG or RDBUF runs in every state. -/
theorem exec_read {i : Instr} (hr : isReadInstr i = true) (hi : i.wf = true) (s : State) :
    exec i s = .next (actionOf i s) := by
  rw [exec_eq_process, hr, hi, State.process_read]

/-! ## Reading twice -/

/-- A command that only answers a value no response changes gives that answer again when it is repeated. -/
theorem read_repeats {i : Instr} {f : State → Word} (hrun : ∀ s, exec i s = .next (s.respond (f s)))
    (hf : ∀ s r, f (s.answer r) = f s) {s t : State} (ht : exec i s = .next t) :
    ∃ v, t = { s with responses := s.responses ++ [v] } ∧
      exec i t = .next { s with responses := s.responses ++ [v, v] } := by
  rw [hrun] at ht
  cases ht
  have hsame : f (s.respond (f s)) = f s := hf s _
  refine ⟨⟨.ok, f s⟩, rfl, ?_⟩
  rw [hrun, hsame, State.respond, State.answer, State.respond_responses, List.append_assoc]
  rfl

/-! ## Writing twice -/

/-- A store leaves the cells below its range as they were. -/
theorem Memory.filter_below_store (m : Memory) (a : Nat) (bs : List Byte) :
    (m.store a bs).filter (fun c => decide (c.1 < a)) = m.filter fun c => decide (c.1 < a) := by
  have hcells : (Memory.cells a bs).filter (fun c => decide (c.1 < a)) = [] :=
    List.filter_eq_nil_iff.2 fun c hc => by simpa using (Memory.mem_cells hc).1
  have habove : (m.filter fun c => decide (c.1 < a) && decide (a + bs.length ≤ c.1)) = [] :=
    List.filter_eq_nil_iff.2 fun c _ => by
      rw [Bool.and_eq_true, decide_eq_true_eq, decide_eq_true_eq]
      omega
  simp only [Memory.store, List.filter_append, List.filter_filter, hcells, habove, List.append_nil, Bool.and_self]

/-- A store leaves the cells above its range as they were. -/
theorem Memory.filter_above_store (m : Memory) (a : Nat) (bs : List Byte) :
    (m.store a bs).filter (fun c => decide (a + bs.length ≤ c.1)) =
      m.filter fun c => decide (a + bs.length ≤ c.1) := by
  have hcells : (Memory.cells a bs).filter (fun c => decide (a + bs.length ≤ c.1)) = [] :=
    List.filter_eq_nil_iff.2 fun c hc => by simpa using (Memory.mem_cells hc).2
  have hbelow : (m.filter fun c => decide (a + bs.length ≤ c.1) && decide (c.1 < a)) = [] :=
    List.filter_eq_nil_iff.2 fun c _ => by
      rw [Bool.and_eq_true, decide_eq_true_eq, decide_eq_true_eq]
      omega
  simp only [Memory.store, List.filter_append, List.filter_filter, hcells, hbelow, List.nil_append, Bool.and_self]

theorem Memory.store_store (m : Memory) (a : Nat) (bs : List Byte) : (m.store a bs).store a bs = m.store a bs := by
  rw [Memory.store, Memory.filter_below_store, Memory.filter_above_store, ← Memory.store]

theorem State.memWrite_memWrite (s : State) (sp : Space) (a : Nat) (bs : List Byte) :
    (s.memWrite sp a bs).memWrite sp a bs = s.memWrite sp a bs := by
  cases sp
  · exact congrArg (fun m => { s with pbuf := m }) (s.pbuf.store_store a bs)
  · exact congrArg (fun m => { s with wbuf := m }) (s.wbuf.store_store a bs)

theorem State.memWrite_respond (s : State) (v : Word) (sp : Space) (a : Nat) (bs : List Byte) :
    (s.respond v).memWrite sp a bs = (s.memWrite sp a bs).respond v := by
  cases sp <;> rfl

theorem actionOf_wrreg_twice (r : HdrReg) (v : Word) (s : State) :
    actionOf (.wrreg r v) (actionOf (.wrreg r v) s) = (actionOf (.wrreg r v) s).respond 0 := by
  cases r <;> rfl

theorem actionOf_wrbuf_twice (sp : Space) (addr : Half) (x : Byte) (s : State) :
    actionOf (.wrbuf sp addr x) (actionOf (.wrbuf sp addr x) s) = (actionOf (.wrbuf sp addr x) s).respond 0 := by
  rw [actionOf, actionOf, State.memWrite_respond, State.memWrite_memWrite]

/-- A command whose action absorbs itself only answers when it is executed again, halted or not. -/
theorem exec_again_only_answers {i : Instr} (hi : i.wf = true)
    (htwice : ∀ s, actionOf i (actionOf i s) = (actionOf i s).respond 0) {s t u : State}
    (ht : exec i s = .next t) (hu : exec i t = .next u) : ∃ r, u = t.answer r := by
  rw [exec_of_wf hi] at ht hu
  cases hu
  by_cases hht : (t.fatal && !isReadInstr i) = true
  · exact ⟨⟨.halted, 0⟩, by rw [if_pos hht]; rfl⟩
  · by_cases hhs : (s.fatal && !isReadInstr i) = true
    · rw [if_pos hhs] at ht
      cases ht
      exact absurd hhs hht
    · rw [if_neg hhs] at ht
      cases ht
      exact ⟨⟨.ok, 0⟩, by rw [if_neg hht, htwice]; rfl⟩

/-- Settles O18: a read only answers, and a repeated write only answers. -/
theorem readsHaveNoSideEffects : Obligations.ReadsHaveNoSideEffects := by
  refine ⟨fun s t i hread ht => ?_, fun s t u i hwrite hi ht hu => ?_⟩
  · rcases hread with ⟨r, rfl⟩ | ⟨sp, addr, rfl, hh⟩
    · exact read_repeats (exec_read rfl rfl) (fun s v => s.answer_readReg v r) ht
    · exact read_repeats (exec_read (i := .rdbuf sp addr) rfl hh) (fun s v => by rw [State.answer_readByte]) ht
  · have honly : ∃ r, u = t.answer r := by
      rcases hwrite with ⟨r, v, rfl⟩ | ⟨sp, addr, x, rfl⟩
      · exact exec_again_only_answers hi (actionOf_wrreg_twice r v) ht hu
      · exact exec_again_only_answers hi (actionOf_wrbuf_twice sp addr x) ht hu
    obtain ⟨r, rfl⟩ := honly
    exact ⟨t.answer_header r, t.answer_mcsum r, t.answer_status r, t.answer_readByte r⟩

end Sys2Proof.Machine
end

section
/-! PROOFS. The header encoding loses nothing (41_header_codec.md R74): `hdrBytes` and `hdrFields` are inverse to each
other field by field, HENC puts the one into WBUF[0..11] and HDEC applies the other to it. -/

namespace Sys2Proof.Machine

/-! ## The two functions -/

theorem hdrFields_hdrBytes (h : Header) : hdrFields (hdrBytes h) = h := by
  have hseq : (hdrFields (hdrBytes h)).seq = h.seq := u32be_be32 h.seq
  have hackn : (hdrFields (hdrBytes h)).ackn = h.ackn := u16be_be16 h.ackn
  have hwin : (hdrFields (hdrBytes h)).win = h.win := u16be_be16 h.win
  have hhcsum : (hdrFields (hdrBytes h)).hcsum = h.hcsum := u16be_be16 h.hcsum
  calc hdrFields (hdrBytes h)
      = ⟨(hdrFields (hdrBytes h)).seq, (hdrFields (hdrBytes h)).ackn, (hdrFields (hdrBytes h)).win, h.flags, h.dlen,
          (hdrFields (hdrBytes h)).hcsum⟩ := rfl
    _ = h := by rw [hseq, hackn, hwin, hhcsum]

/-- Unpacking and packing again keeps bytes 0 to 11, whatever the length of the sequence. -/
theorem hdrBytes_hdrFields_eq_map (B : List Byte) : hdrBytes (hdrFields B) = (List.range 12).map (byteAt B) := by
  simp only [hdrBytes, hdrBytes10, hdrFields, be32_u32be, be16_u16be]
  rfl

theorem hdrBytes_hdrFields {B : List Byte} (hB : B.length = 12) : hdrBytes (hdrFields B) = B := by
  refine eq_of_byteAt hB.symm fun i hi => ?_
  have hi12 : i < 12 := hi
  rw [hdrBytes_hdrFields_eq_map, byteAt, List.getD_eq_getElem?_getD, List.getElem?_map, List.getElem?_range hi12,
    Option.map_some, Option.getD_some]

/-! ## The two commands -/

theorem State.memRead_memWrite_same (s : State) (sp : Space) (a : Nat) (bs : List Byte) :
    (s.memWrite sp a bs).memRead sp a bs.length = bs := by
  refine eq_of_byteAt (State.length_memRead _ _ _ _) fun i hi => ?_
  rw [State.length_memRead] at hi
  rw [State.byteAt_memRead _ _ _ _ _ hi, State.readByte_memWrite, if_pos ⟨by omega, by omega⟩, Nat.add_sub_cancel_left]

@[simp] theorem actionOf_henc_fatal (s : State) : (actionOf .henc s).fatal = s.fatal := rfl

@[simp] theorem actionOf_hdec_fatal (s : State) : (actionOf .hdec s).fatal = s.fatal := rfl

/-- 41_header_codec.md R72. -/
theorem actionOf_henc_memRead (s : State) : (actionOf .henc s).memRead .wbuf 0 12 = hdrBytes s.header :=
  s.memRead_memWrite_same .wbuf 0 (hdrBytes s.header)

/-- 41_header_codec.md R73. -/
theorem actionOf_hdec_header (s : State) : (actionOf .hdec s).header = hdrFields (s.memRead .wbuf 0 12) := rfl

theorem header_hdec_henc (s : State) : (actionOf .hdec (actionOf .henc s)).header = s.header := by
  rw [actionOf_hdec_header, actionOf_henc_memRead, hdrFields_hdrBytes]

theorem memRead_henc_hdec (s : State) :
    (actionOf .henc (actionOf .hdec s)).memRead .wbuf 0 12 = s.memRead .wbuf 0 12 := by
  rw [actionOf_henc_memRead, actionOf_hdec_header, hdrBytes_hdrFields (s.length_memRead .wbuf 0 12)]

theorem State.readByte_eq_of_memRead_eq {s t : State} {sp : Space} {n a : Nat}
    (h : t.memRead sp 0 n = s.memRead sp 0 n) (ha : a < n) : t.readByte sp a = s.readByte sp a := by
  calc t.readByte sp a
      = byteAt (t.memRead sp 0 n) a := by rw [State.byteAt_memRead _ _ _ _ _ ha, Nat.zero_add]
    _ = byteAt (s.memRead sp 0 n) a := by rw [h]
    _ = s.readByte sp a := by rw [State.byteAt_memRead _ _ _ _ _ ha, Nat.zero_add]

/-- Settles O27: neither command raises, so both run, and each undoes the other as the two functions do. -/
theorem headerEncodingRoundTrips : Obligations.HeaderEncodingRoundTrips := by
  refine ⟨hdrFields_hdrBytes, fun B hB => hdrBytes_hdrFields hB, fun s hf => ?_, fun s hf => ?_⟩
  · exact ⟨_, _, exec_run rfl hf, exec_run rfl ((actionOf_henc_fatal s).trans hf), header_hdec_henc s⟩
  · exact ⟨_, _, exec_run rfl hf, exec_run rfl ((actionOf_hdec_fatal s).trans hf),
      fun a ha => State.readByte_eq_of_memRead_eq (memRead_henc_hdec s) ha⟩

end Sys2Proof.Machine
end

section
/-! PROOFS. The four flags are independent bits of FLAGS (42_flags.md R84): what `setFlag` does to each bit of the byte,
and a byte as its high nibble and its four flags. -/

namespace Sys2Proof

/-! ## The bit numbers (42_flags.md R80) -/

theorem Flag.bit_lt (f : Flag) : f.bit < 4 := by cases f <;> decide

theorem Flag.bit_injective {f g : Flag} (h : f.bit = g.bit) : f = g := by
  cases f <;> cases g <;> simp [Flag.bit] at h ⊢

theorem Flag.exists_bit_eq {k : Nat} (hk : k < 4) : ∃ f : Flag, f.bit = k :=
  match k, hk with
  | 0, _ => ⟨.syn, rfl⟩
  | 1, _ => ⟨.ack, rfl⟩
  | 2, _ => ⟨.fin, rfl⟩
  | 3, _ => ⟨.name, rfl⟩

end Sys2Proof

namespace Sys2Proof.Machine

/-! ## The bits of one flag -/

theorem getLsbD_flagMask (f : Flag) (k : Nat) : (flagMask f).getLsbD k = decide (f.bit = k) := by
  have hf := f.bit_lt
  rw [flagMask, ← BitVec.twoPow_eq, BitVec.getLsbD_twoPow, decide_eq_true (by omega), Bool.true_and]

/-- 42_flags.md R81, bit by bit. -/
theorem getLsbD_setFlag (x : Byte) (f : Flag) (v : Bool) (k : Nat) :
    (setFlag x f v).getLsbD k = if f.bit = k then v else x.getLsbD k := by
  cases v with
  | true =>
    rw [setFlag, if_pos rfl, BitVec.getLsbD_or, getLsbD_flagMask]
    by_cases hk : f.bit = k <;> simp [hk]
  | false =>
    rw [setFlag, if_neg Bool.false_ne_true, BitVec.getLsbD_and, BitVec.getLsbD_not, getLsbD_flagMask]
    by_cases hk : f.bit = k
    · simp [hk]
    · simpa [hk] using BitVec.lt_of_getLsbD

@[simp] theorem getFlag_setFlag_same (x : Byte) (f : Flag) (v : Bool) : getFlag (setFlag x f v) f = v := by
  rw [getFlag, getLsbD_setFlag, if_pos rfl]

theorem getFlag_setFlag_of_ne (x : Byte) {f g : Flag} (h : g ≠ f) (v : Bool) :
    getFlag (setFlag x f v) g = getFlag x g := by
  rw [getFlag, getLsbD_setFlag, if_neg fun hb => h (Flag.bit_injective hb).symm, getFlag]

@[simp] theorem extractLsb'_setFlag (x : Byte) (f : Flag) (v : Bool) :
    (setFlag x f v).extractLsb' 4 4 = x.extractLsb' 4 4 := by
  have hf := f.bit_lt
  refine BitVec.eq_of_getLsbD_eq fun k _ => ?_
  rw [BitVec.getLsbD_extractLsb', BitVec.getLsbD_extractLsb', getLsbD_setFlag, if_neg (by omega)]

/-! ## A byte is its high nibble and its four flags -/

theorem eq_of_getFlag_eq {x y : Byte} (hhigh : x.extractLsb' 4 4 = y.extractLsb' 4 4)
    (hflag : ∀ f, getFlag x f = getFlag y f) : x = y := by
  refine BitVec.eq_of_getLsbD_eq fun k hk => ?_
  by_cases hk4 : k < 4
  · obtain ⟨f, rfl⟩ := Flag.exists_bit_eq hk4
    exact hflag f
  · have hbit := congrArg (fun n : BitVec 4 => n.getLsbD (k - 4)) hhigh
    simpa [BitVec.getLsbD_extractLsb', show k - 4 < 4 by omega, show 4 + (k - 4) = k by omega] using hbit

theorem extractLsb'_eq_zero_iff (x : Byte) : x.extractLsb' 4 4 = 0 ↔ x.toNat < 16 := by
  have hx := x.isLt
  rw [← BitVec.toNat_inj, BitVec.extractLsb'_toNat, Nat.shiftRight_eq_div_pow]
  change x.toNat / 2 ^ 4 % 2 ^ 4 = 0 ↔ _
  omega

/-- Writing a flag leaves the byte as it was, or flips the flag's bit. -/
theorem setFlag_xor (x : Byte) (f : Flag) (v : Bool) :
    setFlag x f v ^^^ x = 0 ∨ setFlag x f v ^^^ x = flagMask f := by
  by_cases hv : getFlag x f = v
  · refine .inl (BitVec.xor_eq_zero_iff.2 (eq_of_getFlag_eq (extractLsb'_setFlag x f v) fun g => ?_))
    by_cases hg : g = f
    · rw [hg, getFlag_setFlag_same, hv]
    · exact getFlag_setFlag_of_ne x hg v
  · refine .inr (BitVec.eq_of_getLsbD_eq fun k _ => ?_)
    rw [BitVec.getLsbD_xor, getLsbD_setFlag, getLsbD_flagMask]
    by_cases hk : f.bit = k
    · have hflip : (v ^^ x.getLsbD k) = true := bne_iff_ne.2 fun h => hv (by rw [getFlag, hk, h])
      rw [if_pos hk, hflip, decide_eq_true hk]
    · rw [if_neg hk, Bool.xor_self, decide_eq_false hk]

theorem getFlag_zero (f : Flag) : getFlag 0 f = false := BitVec.getLsbD_zero

theorem noFlags_iff {x : Byte} (hhigh : x.extractLsb' 4 4 = 0) : noFlags x = true ↔ ∀ f, getFlag x f = false := by
  rw [noFlags, beq_iff_eq]
  constructor
  · rintro rfl f
    exact getFlag_zero f
  · exact fun h => eq_of_getFlag_eq hhigh fun f => (h f).trans (getFlag_zero f).symm

/-! ## The byte of a set of flags -/

/-- The byte below 0x10 whose four flags are as asked. -/
def flagsOf (on : Flag → Bool) : Byte :=
  setFlag (setFlag (setFlag (setFlag 0 .syn (on .syn)) .ack (on .ack)) .fin (on .fin)) .name (on .name)

theorem flagsOf_high (on : Flag → Bool) : (flagsOf on).extractLsb' 4 4 = 0 := by
  simp only [flagsOf, extractLsb'_setFlag]
  decide

theorem getFlag_flagsOf (on : Flag → Bool) (f : Flag) : getFlag (flagsOf on) f = on f := by
  cases f <;> simp [flagsOf, getFlag_setFlag_of_ne]

theorem eq_flagsOf {on : Flag → Bool} {y : Byte} (hy : y.toNat < 16) (hon : ∀ f, getFlag y f = on f) : y = flagsOf on :=
  eq_of_getFlag_eq (((extractLsb'_eq_zero_iff y).2 hy).trans (flagsOf_high on).symm) fun f =>
    (hon f).trans (getFlag_flagsOf on f).symm

/-! ## The three commands -/

@[simp] theorem actionOf_fset_flags (s : State) (f : Flag) (v : Bool) :
    (actionOf (.fset f v) s).flags = setFlag s.flags f v := rfl

@[simp] theorem actionOf_fset_fatal (s : State) (f : Flag) (v : Bool) : (actionOf (.fset f v) s).fatal = s.fatal := rfl

theorem exec_fget {s : State} (hf : s.fatal = false) (f : Flag) :
    exec (.fget f) s = .next (s.respond (boolVal (getFlag s.flags f))) := exec_run rfl hf

theorem exec_noflg {s : State} (hf : s.fatal = false) :
    exec .noflg s = .next (s.respond (boolVal (noFlags s.flags))) := exec_run rfl hf

theorem State.respond_inj (s : State) (v w : Word) : s.respond v = s.respond w ↔ v = w := by
  refine ⟨fun h => ?_, fun h => by rw [h]⟩
  have hlog := congrArg State.responses h
  simpa using hlog

theorem boolVal_eq_one_iff (p : Bool) : boolVal p = 1 ↔ p = true := by cases p <;> decide

theorem boolVal_eq_zero_iff (p : Bool) : boolVal p = 0 ↔ p = false := by cases p <;> decide

theorem exec_fget_zero_iff {s : State} (hf : s.fatal = false) (f : Flag) :
    exec (.fget f) s = .next (s.respond 0) ↔ getFlag s.flags f = false := by
  rw [exec_fget hf, Host.Outcome.next.injEq, State.respond_inj, boolVal_eq_zero_iff]

theorem exec_noflg_one_iff {s : State} (hf : s.fatal = false) :
    exec .noflg s = .next (s.respond 1) ↔ noFlags s.flags = true := by
  rw [exec_noflg hf, Host.Outcome.next.injEq, State.respond_inj, boolVal_eq_one_iff]

/-- FGET executed right after an FSET. -/
theorem exec_fget_after_fset {s : State} (hf : s.fatal = false) (i f : Flag) (v : Bool) :
    exec (.fget f) (actionOf (.fset i v) s) =
      .next ((actionOf (.fset i v) s).respond (boolVal (getFlag (setFlag s.flags i v) f))) := by
  rw [exec_fget ((actionOf_fset_fatal s i v).trans hf), actionOf_fset_flags]

/-- Settles O31: the answers and the byte are those of `setFlag` and `getFlag`, and a byte is its high nibble and its
four flags. -/
theorem flagAlgebra : Obligations.FlagAlgebra := by
  refine ⟨fun s i j v hf => ?_, fun s hf hhigh => ?_, fun on => ?_⟩
  · refine ⟨actionOf (.fset i v) s, _, _, exec_run rfl hf, ?_,
      fun hj => ⟨exec_fget hf j, exec_fget_after_fset hf i j v, ?_⟩, extractLsb'_setFlag s.flags i v,
      setFlag_xor s.flags i v⟩
    · rw [exec_fget_after_fset hf, getFlag_setFlag_same]
      rfl
    · rw [getFlag_setFlag_of_ne s.flags hj]
  · calc exec .noflg s = .next (s.respond 1)
        ↔ noFlags s.flags = true := exec_noflg_one_iff hf
      _ ↔ ∀ f, getFlag s.flags f = false := noFlags_iff hhigh
      _ ↔ ∀ f, exec (.fget f) s = .next (s.respond 0) := forall_congr' fun f => (exec_fget_zero_iff hf f).symm
  · exact ⟨flagsOf on, (extractLsb'_eq_zero_iff _).1 (flagsOf_high on), getFlag_flagsOf on, fun y => eq_flagsOf⟩

end Sys2Proof.Machine
end

section
/-! PROOFS. MENC then MDEC (43_message_codec.md R93): WBUF holds MENC's frame region by region, so both checks pass for
every `MsgSum`, and of what MDEC loads only PBUF differs from what the registers and buffers hold after MENC. -/

namespace Sys2Proof.Machine

/-! ## A written sequence is read back part by part -/

theorem State.memRead_memWrite_middle (s : State) (sp : Space) (a : Nat) (A B C : List Byte) :
    (s.memWrite sp a (A ++ B ++ C)).memRead sp (a + A.length) B.length = B := by
  refine eq_of_byteAt (State.length_memRead _ _ _ _) fun i hi => ?_
  rw [State.length_memRead] at hi
  have hin : a ≤ a + A.length + i ∧ a + A.length + i < a + (A ++ B ++ C).length := by
    simp only [List.length_append]
    omega
  rw [State.byteAt_memRead _ _ _ _ _ hi, State.readByte_memWrite, if_pos hin, Nat.add_assoc, Nat.add_sub_cancel_left,
    List.append_assoc, byteAt_append_right (Nat.le_add_right _ _), Nat.add_sub_cancel_left, byteAt_append_left hi]

/-! ## The three regions of WBUF and the two checks -/

@[simp] theorem State.respond_headerCheck (s : State) (v : Word) : (s.respond v).headerCheck = s.headerCheck := rfl

@[simp] theorem State.respond_messageCheck (s : State) (v : Word) : (s.respond v).messageCheck = s.messageCheck := rfl

theorem State.mdecWrites_respond (s : State) (v : Word) : (s.respond v).mdecWrites = s.mdecWrites.respond v := rfl

theorem State.wireSum_eq_of_memRead {s : State} {m : Word} (h : s.memRead .wbuf 12 4 = be32 m) : s.wireSum = m := by
  have hbyte : ∀ i < 4, s.readByte .wbuf (12 + i) = byteAt (be32 m) i := fun i hi => by
    rw [← h, State.byteAt_memRead _ _ _ _ _ hi]
  rw [State.wireSum, hbyte 0 (by decide), hbyte 1 (by decide), hbyte 2 (by decide), hbyte 3 (by decide)]
  exact u32be_be32 m

/-- The header check looks only at the Header value that WBUF[0..11] encodes (60_exceptions.md R101). -/
theorem State.headerCheck_of_wireHeader {s : State} {h : Header} (hw : s.wireHeader = hdrBytes h) :
    s.headerCheck = (h.hcsum == hdrSum (hdrBytes10 h)) := by
  rw [State.headerCheck, hw, hdrFields_hdrBytes, hdrCover_eq, take_hdrBytes]

theorem actionOf_mdec_of_checks {s : State} (hh : s.headerCheck = true) (hm : s.messageCheck = true) :
    actionOf .mdec s = s.mdecWrites.respond 0 := by
  rw [actionOf, hh, hm, if_neg Bool.noConfusion, if_neg Bool.noConfusion]

theorem State.setHeader_self (s : State) : s.setHeader s.header = s := rfl

/-- MDEC writes no more than PBUF when registers 0 to 6 hold what WBUF[0..15] encodes. -/
theorem State.mdecWrites_of_registers {s : State} (hw : s.wireHeader = hdrBytes s.header) (hm : s.wireSum = s.mcsum) :
    s.mdecWrites = s.memWrite .pbuf 0 s.wirePayload := by
  rw [State.mdecWrites, hw, hm, hdrFields_hdrBytes, State.setHeader_self]

section
variable (s : State) (plen : Half)

/-! ## The frame MENC leaves -/

theorem actionOf_menc_of_le (h : plen.toNat ≤ 255) : actionOf (.menc plen) s = (s.mencWrites plen).respond 0 := by
  rw [actionOf, if_neg (by omega)]

theorem State.mencWrites_eq : s.mencWrites plen =
    { s with
      dlen := (s.mencHeader plen).dlen
      hcsum := (s.mencHeader plen).hcsum
      mcsum := s.mencSum plen }.memWrite .wbuf 0 (s.mencFrame plen (s.mencSum plen)) :=
  withNumeral_eq _ _

@[simp] theorem State.mencWrites_header : (s.mencWrites plen).header = s.mencHeader plen := by
  rw [State.mencWrites_eq]
  rfl

@[simp] theorem State.mencWrites_mcsum : (s.mencWrites plen).mcsum = s.mencSum plen := by
  rw [State.mencWrites_eq, State.memWrite_mcsum]

@[simp] theorem State.mencWrites_status : (s.mencWrites plen).status = s.status := by
  rw [State.mencWrites_eq, State.memWrite_status]

@[simp] theorem State.mencWrites_responses : (s.mencWrites plen).responses = s.responses := by
  rw [State.mencWrites_eq, State.memWrite_responses]

@[simp] theorem State.mencWrites_msgSum : (s.mencWrites plen).msgSum = s.msgSum := by
  rw [State.mencWrites_eq, State.memWrite_msgSum]

@[simp] theorem State.mencWrites_fatal : (s.mencWrites plen).fatal = s.fatal :=
  congrArg fatalBit (s.mencWrites_status plen)

@[simp] theorem State.mencWrites_wireHeader : (s.mencWrites plen).wireHeader = hdrBytes (s.mencHeader plen) := by
  rw [State.mencWrites_eq, State.mencFrame, List.append_assoc]
  exact State.memRead_memWrite_middle _ .wbuf 0 [] (hdrBytes (s.mencHeader plen)) _

@[simp] theorem State.mencWrites_wireSum : (s.mencWrites plen).wireSum = s.mencSum plen := by
  refine State.wireSum_eq_of_memRead ?_
  rw [State.mencWrites_eq, State.mencFrame]
  exact State.memRead_memWrite_middle _ .wbuf 0 (hdrBytes (s.mencHeader plen)) (be32 (s.mencSum plen)) _

theorem State.mencWrites_wirePayload (h : plen.toNat ≤ 255) : (s.mencWrites plen).wirePayload = s.mencPayload plen := by
  have hlen : (s.mencPayload plen).length = 1000 := s.length_mencPayload plen (by omega)
  have hread := State.memRead_memWrite_middle
    { s with dlen := (s.mencHeader plen).dlen, hcsum := (s.mencHeader plen).hcsum, mcsum := s.mencSum plen }
    .wbuf 0 (hdrBytes (s.mencHeader plen) ++ be32 (s.mencSum plen)) (s.mencPayload plen) []
  rw [List.append_nil, hlen] at hread
  rw [State.mencWrites_eq]
  exact hread

/-! ## MDEC accepts it -/

/-- HCSUM is no part of the ten bytes it is computed over (41_header_codec.md R65). -/
theorem State.mencHeader_hcsum : (s.mencHeader plen).hcsum = hdrSum (hdrBytes10 (s.mencHeader plen)) := rfl

theorem State.mencWrites_headerCheck : (s.mencWrites plen).headerCheck = true := by
  rw [State.headerCheck_of_wireHeader (s.mencWrites_wireHeader plen), ← State.mencHeader_hcsum, beq_self_eq_true]

/-- Nothing about `MsgSum` enters: both commands apply it to the same bytes. -/
theorem State.mencWrites_messageCheck (h : plen.toNat ≤ 255) : (s.mencWrites plen).messageCheck = true := by
  rw [State.messageCheck, State.mencWrites_wireSum, State.mencWrites_msgSum, State.mencWrites_wireHeader,
    State.mencWrites_wirePayload s plen h, State.mencSum, beq_self_eq_true]

theorem State.mencWrites_mdecWrites (h : plen.toNat ≤ 255) :
    (s.mencWrites plen).mdecWrites = (s.mencWrites plen).memWrite .pbuf 0 (s.mencPayload plen) := by
  have hheader : (s.mencWrites plen).wireHeader = hdrBytes (s.mencWrites plen).header := by
    rw [State.mencWrites_wireHeader, State.mencWrites_header]
  have hsum : (s.mencWrites plen).wireSum = (s.mencWrites plen).mcsum := by
    rw [State.mencWrites_wireSum, State.mencWrites_mcsum]
  rw [State.mdecWrites_of_registers hheader hsum, State.mencWrites_wirePayload s plen h]

/-- 43_message_codec.md R93: MDEC right after MENC answers OK and writes MENC's payload region into PBUF. -/
theorem actionOf_mdec_menc (h : plen.toNat ≤ 255) :
    actionOf .mdec (actionOf (.menc plen) s) =
      (((s.mencWrites plen).respond 0).memWrite .pbuf 0 (s.mencPayload plen)).respond 0 := by
  have hheader : ((s.mencWrites plen).respond 0).headerCheck = true := by
    rw [State.respond_headerCheck, State.mencWrites_headerCheck]
  have hmessage : ((s.mencWrites plen).respond 0).messageCheck = true := by
    rw [State.respond_messageCheck, State.mencWrites_messageCheck s plen h]
  rw [actionOf_menc_of_le s plen h, actionOf_mdec_of_checks hheader hmessage, State.mdecWrites_respond,
    State.mencWrites_mdecWrites s plen h, State.memWrite_respond]

/-! ## The bytes of the payload region -/

theorem State.byteAt_mencPayload (k : Nat) :
    byteAt (s.mencPayload plen) k = if k < plen.toNat then s.readByte .pbuf k else 0 := by
  have hlen : (s.memRead .pbuf 0 plen.toNat).length = plen.toNat := s.length_memRead .pbuf 0 plen.toNat
  rw [State.mencPayload]
  split
  next hk => rw [byteAt_append_left (by omega), State.byteAt_memRead _ _ _ _ _ hk, Nat.zero_add]
  next hk => rw [byteAt_append_right (by omega), byteAt_zeros]

/-- PBUF[0..999] once MENC's payload region is written there. -/
theorem State.readByte_memWrite_mencPayload (t : State) (h : plen.toNat ≤ 255) {k : Nat} (hk : k < 1000) :
    (t.memWrite .pbuf 0 (s.mencPayload plen)).readByte .pbuf k = if k < plen.toNat then s.readByte .pbuf k else 0 := by
  have hlen : (s.mencPayload plen).length = 1000 := s.length_mencPayload plen (by omega)
  rw [State.readByte_memWrite, if_pos ⟨Nat.zero_le k, by omega⟩, Nat.sub_zero, State.byteAt_mencPayload]

end

/-- A length MENC accepts fits DLEN. -/
theorem State.toNat_mencHeader_dlen (s : State) {plen : Half} (h : plen.toNat ≤ 255) :
    (s.mencHeader plen).dlen.toNat = plen.toNat := by
  have htrunc : (s.mencHeader plen).dlen.toNat = plen.toNat % 2 ^ 8 := BitVec.toNat_setWidth 8 plen
  omega

/-- Settles O36: MDEC only rewrites PBUF with MENC's payload region, so every register and WBUF are as MENC left
them. -/
theorem mencThenMdecRoundTrips : Obligations.MencThenMdecRoundTrips := by
  intro s plen hf hlen
  have hheader := s.mencWrites_header plen
  have hfatal : (actionOf (.menc plen) s).fatal = false := by
    rw [actionOf_menc_of_le s plen hlen, State.respond_fatal, State.mencWrites_fatal, hf]
  refine ⟨_, _, exec_run rfl hf, exec_run rfl hfatal, ?_⟩
  rw [actionOf_mdec_menc s plen hlen, actionOf_menc_of_le s plen hlen]
  refine ⟨?_, congrArg Header.seq hheader, congrArg Header.ackn hheader, congrArg Header.win hheader,
    congrArg Header.flags hheader, ?_, rfl, rfl, fun k hk => ?_, fun k hk hk1000 => ?_, rfl⟩
  · simp
  · exact (congrArg (fun h => h.dlen.toNat) hheader).trans (s.toNat_mencHeader_dlen hlen)
  · exact (s.readByte_memWrite_mencPayload plen _ hlen (by omega)).trans (if_pos hk)
  · exact (s.readByte_memWrite_mencPayload plen _ hlen hk1000).trans (if_neg (by omega))

end Sys2Proof.Machine
end

section
/-! PROOFS. What the decoder accepts (30_encoding.md R46, R50 to R52): each operand decoder as an equivalence, an accepted
word as the word of a well-formed instruction, and the accepted words as the legal ones. -/

namespace Sys2Proof.Machine

/-! ## Index fields and the names they carry -/

theorem Reg.ofIndex?_eq_some_iff {a : Byte} {r : Reg} : Reg.ofIndex? a = some r ↔ a = r.index := by
  refine ⟨fun h => ?_, fun h => by rw [h]; cases r <;> rfl⟩
  rw [Reg.ofIndex?] at h
  split at h <;> cases h <;> exact BitVec.eq_of_toNat_eq ‹_›

theorem HdrReg.ofIndex?_eq_some_iff {a : Byte} {r : HdrReg} : HdrReg.ofIndex? a = some r ↔ a = r.reg.index := by
  refine ⟨fun h => ?_, fun h => by rw [h]; cases r <;> rfl⟩
  rw [HdrReg.ofIndex?] at h
  split at h <;> cases h <;> exact BitVec.eq_of_toNat_eq ‹_›

theorem Space.ofIndex?_eq_some_iff {a : Byte} {sp : Space} : Space.ofIndex? a = some sp ↔ a = sp.index := by
  refine ⟨fun h => ?_, fun h => by rw [h]; cases sp <;> rfl⟩
  rw [Space.ofIndex?] at h
  split at h <;> cases h <;> exact BitVec.eq_of_toNat_eq ‹_›

theorem Flag.ofIndex?_eq_some_iff {a : Byte} {f : Flag} : Flag.ofIndex? a = some f ↔ a = f.index := by
  refine ⟨fun h => ?_, fun h => by rw [h]; cases f <;> rfl⟩
  rw [Flag.ofIndex?] at h
  split at h <;> cases h <;> exact BitVec.eq_of_toNat_eq ‹_›

/-! ## The operand decoders -/

theorem ite_error_eq_ok_iff {c : Prop} [Decidable c] {k : Except DecodeError Instr} {e : DecodeError} {i : Instr} :
    (if c then k else .error e) = .ok i ↔ c ∧ k = .ok i := by
  split <;> simp [*]

section
variable {a : Byte} {b : Half} {imm : Word} {i : Instr}

theorem decodePlain_eq_ok_iff {j : Instr} : decodePlain a b imm j = .ok i ↔ j = i ∧ a = 0 ∧ b = 0 ∧ imm = 0 := by
  rw [decodePlain, needZero, ite_error_eq_ok_iff]
  simp only [Bool.and_eq_true, beq_iff_eq, Except.ok.injEq, and_comm, and_assoc]

theorem decodeRdreg_eq_ok_iff : decodeRdreg a b imm = .ok i ↔ ∃ r, .rdreg r = i ∧ a = r.index ∧ b = 0 ∧ imm = 0 := by
  simp only [decodeRdreg, needZero, ite_error_eq_ok_iff, ← Reg.ofIndex?_eq_some_iff]
  cases Reg.ofIndex? a <;> simp [and_comm]

theorem decodeWrreg_eq_ok_iff :
    decodeWrreg a b imm = .ok i ↔ ∃ r, .wrreg r imm = i ∧ a = r.reg.index ∧ r.fits imm = true ∧ b = 0 := by
  simp only [decodeWrreg, needZero, ite_error_eq_ok_iff, ← HdrReg.ofIndex?_eq_some_iff]
  cases HdrReg.ofIndex? a <;> simp [ite_error_eq_ok_iff, and_comm, and_assoc]

theorem decodeRdbuf_eq_ok_iff :
    decodeRdbuf a b imm = .ok i ↔ ∃ sp, .rdbuf sp b = i ∧ a = sp.index ∧ sp.holds b = true ∧ imm = 0 := by
  simp only [decodeRdbuf, needZero, ite_error_eq_ok_iff, ← Space.ofIndex?_eq_some_iff]
  cases Space.ofIndex? a <;> simp [ite_error_eq_ok_iff, and_comm, and_left_comm]

theorem decodeWrbuf_eq_ok_iff :
    decodeWrbuf a b imm = .ok i ↔
      ∃ sp, .wrbuf sp b (imm.setWidth 8) = i ∧ a = sp.index ∧ sp.holds b = true ∧ imm.toNat < 256 := by
  simp only [decodeWrbuf, ← Space.ofIndex?_eq_some_iff]
  cases Space.ofIndex? a <;> simp [ite_error_eq_ok_iff, and_comm, and_assoc, and_left_comm]

theorem decodeFset_eq_ok_iff :
    decodeFset a b imm = .ok i ↔ ∃ f v, .fset f v = i ∧ a = f.index ∧ b = 0 ∧ imm = if v then 1 else 0 := by
  simp only [decodeFset, needZero, ite_error_eq_ok_iff, ← Flag.ofIndex?_eq_some_iff]
  cases Flag.ofIndex? a with
  | none => simp
  | some f =>
    simp only [Option.some.injEq]
    split
    next hv =>
      obtain rfl : imm = 0 := BitVec.eq_of_toNat_eq hv
      simp [and_comm]
    next hv =>
      obtain rfl : imm = 1 := BitVec.eq_of_toNat_eq hv
      simp [and_comm]
    next h0 h1 =>
      have hne0 : imm ≠ 0#32 := fun hv => h0 (congrArg BitVec.toNat hv)
      have hne1 : imm ≠ 1#32 := fun hv => h1 (congrArg BitVec.toNat hv)
      simp [hne0, hne1]

theorem decodeFget_eq_ok_iff : decodeFget a b imm = .ok i ↔ ∃ f, .fget f = i ∧ a = f.index ∧ b = 0 ∧ imm = 0 := by
  simp only [decodeFget, needZero, ite_error_eq_ok_iff, ← Flag.ofIndex?_eq_some_iff]
  cases Flag.ofIndex? a <;> simp [and_comm]

theorem decodeMenc_eq_ok_iff : decodeMenc a b imm = .ok i ↔ .menc b = i ∧ a = 0 ∧ imm = 0 := by
  rw [decodeMenc, needZero, ite_error_eq_ok_iff]
  simp only [Bool.and_eq_true, beq_iff_eq, Except.ok.injEq, and_comm]

end

/-! ## An accepted word is the word of a well-formed instruction -/

theorem decodePlain_sound {op a : Byte} {b : Half} {imm : Word} {i j : Instr} (h : decodePlain a b imm j = .ok i)
    (hwf : j.wf = true) (hj : encode j = packWord op 0 0 0) : i.wf = true ∧ encode i = packWord op a b imm := by
  obtain ⟨rfl, rfl, rfl, rfl⟩ := decodePlain_eq_ok_iff.1 h
  exact ⟨hwf, hj⟩

theorem setWidth_setWidth_of_lt {imm : Word} (h : imm.toNat < 256) : (imm.setWidth 8).setWidth 32 = imm := by
  refine BitVec.eq_of_toNat_eq ?_
  rw [BitVec.toNat_setWidth, BitVec.toNat_setWidth]
  omega

theorem decodeFields_sound {op a : Byte} {b : Half} {imm : Word} {i : Instr} (h : decodeFields op a b imm = .ok i) :
    i.wf = true ∧ encode i = packWord op a b imm := by
  rw [decodeFields] at h
  split at h
  case h_1 hop =>
    obtain rfl : op = 0x01 := BitVec.eq_of_toNat_eq hop
    obtain ⟨r, rfl, rfl, rfl, rfl⟩ := decodeRdreg_eq_ok_iff.1 h
    exact ⟨rfl, rfl⟩
  case h_2 hop =>
    obtain rfl : op = 0x02 := BitVec.eq_of_toNat_eq hop
    obtain ⟨r, rfl, rfl, hfits, rfl⟩ := decodeWrreg_eq_ok_iff.1 h
    exact ⟨hfits, rfl⟩
  case h_3 hop =>
    obtain rfl : op = 0x03 := BitVec.eq_of_toNat_eq hop
    obtain ⟨sp, rfl, rfl, hholds, rfl⟩ := decodeRdbuf_eq_ok_iff.1 h
    exact ⟨hholds, rfl⟩
  case h_4 hop =>
    obtain rfl : op = 0x04 := BitVec.eq_of_toNat_eq hop
    obtain ⟨sp, rfl, rfl, hholds, hbyte⟩ := decodeWrbuf_eq_ok_iff.1 h
    exact ⟨hholds, congrArg (packWord 0x04 sp.index b) (setWidth_setWidth_of_lt hbyte)⟩
  case h_9 hop =>
    obtain rfl : op = 0x20 := BitVec.eq_of_toNat_eq hop
    obtain ⟨f, v, rfl, rfl, rfl, rfl⟩ := decodeFset_eq_ok_iff.1 h
    exact ⟨rfl, rfl⟩
  case h_10 hop =>
    obtain rfl : op = 0x21 := BitVec.eq_of_toNat_eq hop
    obtain ⟨f, rfl, rfl, rfl, rfl⟩ := decodeFget_eq_ok_iff.1 h
    exact ⟨rfl, rfl⟩
  case h_12 hop =>
    obtain rfl : op = 0x30 := BitVec.eq_of_toNat_eq hop
    obtain ⟨rfl, rfl, rfl⟩ := decodeMenc_eq_ok_iff.1 h
    exact ⟨rfl, rfl⟩
  case h_14 => cases h
  all_goals
    exact decodePlain_sound h rfl (congrArg (packWord · 0 0 0) (BitVec.eq_of_toNat_eq (Eq.symm ‹op.toNat = _›)))

/-- The half of 30_encoding.md R50 and R52 the error statements need: the word carries the fields of a well-formed
instruction. -/
theorem decode_sound {w : Word64} {i : Instr} (h : decode w = .ok i) : i.wf = true ∧ encode i = w := by
  rw [← packWord_fields w]
  exact decodeFields_sound h

/-- `Laws.EncodedOp` over all constructors. -/
theorem encodedOp (i : Instr) : Laws.EncodedOp.Statement i :=
  match i with
  | .rdreg r => Laws.EncodedOp.rdreg r
  | .wrreg r v => Laws.EncodedOp.wrreg r v
  | .rdbuf sp addr => Laws.EncodedOp.rdbuf sp addr
  | .wrbuf sp addr x => Laws.EncodedOp.wrbuf sp addr x
  | .hcsm => Laws.EncodedOp.hcsm
  | .hvfy => Laws.EncodedOp.hvfy
  | .henc => Laws.EncodedOp.henc
  | .hdec => Laws.EncodedOp.hdec
  | .fset f v => Laws.EncodedOp.fset f v
  | .fget f => Laws.EncodedOp.fget f
  | .noflg => Laws.EncodedOp.noflg
  | .menc plen => Laws.EncodedOp.menc plen
  | .mdec => Laws.EncodedOp.mdec

theorem decode_opNum {w : Word64} {i : Instr} (h : decode w = .ok i) : opNum w = Laws.EncodedOp.opcode i := by
  rw [← (decode_sound h).2]
  exact (encodedOp i).1

theorem legalWord_of_decode {w : Word64} {i : Instr} (h : decode w = .ok i) : LegalWord w := by
  obtain ⟨hwf, henc⟩ := decode_sound h
  rw [← henc]
  exact (encodedOp i).2 hwf

/-! ## A legal word is accepted -/

theorem aNum_eq_zero_iff {w : Word64} : aNum w = 0 ↔ aField w = 0 := by
  rw [← toNat_aField]
  exact BitVec.toNat_inj (y := 0)

theorem bNum_eq_zero_iff {w : Word64} : bNum w = 0 ↔ bField w = 0 := by
  rw [← toNat_bField]
  exact BitVec.toNat_inj (y := 0)

theorem immNum_eq_zero_iff {w : Word64} : immNum w = 0 ↔ immField w = 0 := by
  rw [← toNat_immField]
  exact BitVec.toNat_inj (y := 0)

theorem Reg.exists_toNat_index {k : Nat} (hk : k ≤ 7) : ∃ r : Reg, k = r.index.toNat :=
  match k, hk with
  | 0, _ => ⟨.seq, rfl⟩
  | 1, _ => ⟨.ackn, rfl⟩
  | 2, _ => ⟨.win, rfl⟩
  | 3, _ => ⟨.flags, rfl⟩
  | 4, _ => ⟨.dlen, rfl⟩
  | 5, _ => ⟨.hcsum, rfl⟩
  | 6, _ => ⟨.mcsum, rfl⟩
  | 7, _ => ⟨.status, rfl⟩

theorem Reg.exists_index {a : Byte} (h : a.toNat ≤ 7) : ∃ r : Reg, a = r.index := by
  obtain ⟨r, hr⟩ := Reg.exists_toNat_index h
  exact ⟨r, BitVec.eq_of_toNat_eq hr⟩

theorem HdrReg.exists_index {a : Byte} {v : Word} (h : ValueFits a.toNat v.toNat) :
    ∃ r : HdrReg, a = r.reg.index ∧ r.fits v = true := by
  rcases h with h | ⟨h | h | h, hv⟩ | ⟨h | h, hv⟩
  · exact ⟨.seq, BitVec.eq_of_toNat_eq h, (fits_iff .seq v).2 v.isLt⟩
  · exact ⟨.ackn, BitVec.eq_of_toNat_eq h, (fits_iff .ackn v).2 hv⟩
  · exact ⟨.win, BitVec.eq_of_toNat_eq h, (fits_iff .win v).2 hv⟩
  · exact ⟨.hcsum, BitVec.eq_of_toNat_eq h, (fits_iff .hcsum v).2 hv⟩
  · exact ⟨.flags, BitVec.eq_of_toNat_eq h, (fits_iff .flags v).2 hv⟩
  · exact ⟨.dlen, BitVec.eq_of_toNat_eq h, (fits_iff .dlen v).2 hv⟩

theorem Space.exists_index {a : Byte} {b : Half} (h : AddressExists a.toNat b.toNat) :
    ∃ sp : Space, a = sp.index ∧ sp.holds b = true := by
  rcases h with ⟨h, hb⟩ | ⟨h, hb⟩
  · exact ⟨.pbuf, BitVec.eq_of_toNat_eq h, (holds_pbuf_iff b).2 hb⟩
  · exact ⟨.wbuf, BitVec.eq_of_toNat_eq h, (holds_wbuf_iff b).2 hb⟩

theorem Flag.exists_index {a : Byte} (h : a.toNat ≤ 3) : ∃ f : Flag, a = f.index := by
  obtain ⟨f, hf⟩ := Flag.exists_bit_eq (k := a.toNat) (by omega)
  exact ⟨f, by rw [Flag.index, hf, BitVec.ofNat_toNat, BitVec.setWidth_eq]⟩

theorem exists_flagValue {imm : Word} (h : imm.toNat ≤ 1) : ∃ v : Bool, imm = if v then 1 else 0 := by
  rcases Nat.le_one_iff_eq_zero_or_eq_one.1 h with h | h
  · exact ⟨false, BitVec.eq_of_toNat_eq h⟩
  · exact ⟨true, BitVec.eq_of_toNat_eq h⟩

theorem decode_of_legalWord {w : Word64} (h : LegalWord w) : ∃ i, decode w = .ok i := by
  simp only [LegalWord, aNum_eq_zero_iff, bNum_eq_zero_iff, immNum_eq_zero_iff] at h
  simp only [← toNat_aField, ← toNat_bField, ← toNat_immField] at h
  rw [decode, decodeFields, toNat_opField]
  rcases h with ⟨hop, ha, hb, hi⟩ | ⟨hop, hv, hb⟩ | ⟨hop, hab, hi⟩ | ⟨hop, hab, hi⟩ | ⟨hop, ha, hb, hi⟩ |
    ⟨hop, ha, hb, hi⟩ | ⟨hop, ha, hb, hi⟩ | ⟨hop, ha, hb, hi⟩ | ⟨hop, ha, hi⟩ | ⟨hop, ha, hb, hi⟩
  · obtain ⟨r, hr⟩ := Reg.exists_index ha
    rw [hop]
    exact ⟨_, decodeRdreg_eq_ok_iff.2 ⟨r, rfl, hr, hb, hi⟩⟩
  · obtain ⟨r, hr, hfits⟩ := HdrReg.exists_index hv
    rw [hop]
    exact ⟨_, decodeWrreg_eq_ok_iff.2 ⟨r, rfl, hr, hfits, hb⟩⟩
  · obtain ⟨sp, hsp, hholds⟩ := Space.exists_index hab
    rw [hop]
    exact ⟨_, decodeRdbuf_eq_ok_iff.2 ⟨sp, rfl, hsp, hholds, hi⟩⟩
  · obtain ⟨sp, hsp, hholds⟩ := Space.exists_index hab
    rw [hop]
    exact ⟨_, decodeWrbuf_eq_ok_iff.2 ⟨sp, rfl, hsp, hholds, hi⟩⟩
  · rcases hop with hop | hop | hop | hop <;>
      exact ⟨_, by rw [hop]; exact decodePlain_eq_ok_iff.2 ⟨rfl, ha, hb, hi⟩⟩
  · obtain ⟨f, hf⟩ := Flag.exists_index ha
    obtain ⟨v, hv⟩ := exists_flagValue hi
    rw [hop]
    exact ⟨_, decodeFset_eq_ok_iff.2 ⟨f, v, rfl, hf, hb, hv⟩⟩
  · obtain ⟨f, hf⟩ := Flag.exists_index ha
    rw [hop]
    exact ⟨_, decodeFget_eq_ok_iff.2 ⟨f, rfl, hf, hb, hi⟩⟩
  · exact ⟨_, by rw [hop]; exact decodePlain_eq_ok_iff.2 ⟨rfl, ha, hb, hi⟩⟩
  · exact ⟨_, by rw [hop]; exact decodeMenc_eq_ok_iff.2 ⟨rfl, ha, hi⟩⟩
  · exact ⟨_, by rw [hop]; exact decodePlain_eq_ok_iff.2 ⟨rfl, ha, hb, hi⟩⟩

theorem decode_ok_iff_legalWord (w : Word64) : (∃ i, decode w = .ok i) ↔ LegalWord w :=
  ⟨fun ⟨_, hi⟩ => legalWord_of_decode hi, decode_of_legalWord⟩

/-- Settles O3: the decoder accepts the legal words only, and a word it refuses is answered as an illegal word. -/
theorem illegalWordsRaiseIllegalCommand : Obligations.IllegalWordsRaiseIllegalCommand := by
  intro s w
  refine ⟨decode_ok_iff_legalWord w, fun hillegal hf => ⟨s.raise .illegalCommand, ?_, rfl, ?_⟩⟩
  · cases h : decode w with
    | ok i => exact absurd (legalWord_of_decode h) hillegal
    | error e => rw [step_present, processWord_error h, State.illegalWord_of_nonfatal hf]
  · exact s.raise_illegalCommand_report.2

end Sys2Proof.Machine
end

section
/-! PROOFS. The errors (60_exceptions.md): the error a word ends with as a function of the word and the state, the step of
every word as either that error raised or an answer that leaves STATUS alone, and the halted block (R105). -/

namespace Sys2Proof.Machine

open Laws.EncodedOp (opcode)

/-! ## The error of a command -/

/-- The error a well-formed command of a non-fatal block ends with; the header check of MDEC comes first (R108). -/
def commandError : Instr → State → Option ErrorKind
  | .menc plen, _ => if plen.toNat > 255 then some .payloadTooLarge else none
  | .mdec, s =>
    if s.headerCheck = false then some .headerChecksumMismatch
    else if s.messageCheck = false then some .messageChecksumMismatch
    else none
  | .rdreg _, _ | .wrreg _ _, _ | .rdbuf _ _, _ | .wrbuf _ _ _, _ | .hcsm, _ | .hvfy, _ | .henc, _ | .hdec, _
  | .fset _ _, _ | .fget _, _ | .noflg, _ => none

/-- The state `t` answers OK and leaves the STATUS of `s` as it was. -/
def AnswersOk (s t : State) : Prop := (∃ v, t.responses = s.responses ++ [⟨.ok, v⟩]) ∧ t.status = s.status

theorem AnswersOk.of_respond {s t : State} (v : Word) (hr : t.responses = s.responses) (hs : t.status = s.status) :
    AnswersOk s (t.respond v) :=
  ⟨⟨v, by rw [State.respond_responses, hr]⟩, hs⟩

@[simp] theorem State.mdecWrites_responses (s : State) : s.mdecWrites.responses = s.responses := rfl

@[simp] theorem State.mdecWrites_status (s : State) : s.mdecWrites.status = s.status := rfl

theorem actionOf_of_commandError {i : Instr} {s : State} {k : ErrorKind} (h : commandError i s = some k) :
    actionOf i s = s.raise k := by
  cases i with
  | menc plen =>
    rw [commandError] at h
    split at h <;> cases h
    rw [actionOf, if_pos ‹_›]
  | mdec =>
    rw [commandError] at h
    split at h
    next hh =>
      cases h
      rw [actionOf, if_pos hh]
    next hh =>
      split at h <;> cases h
      rw [actionOf, if_neg hh, if_pos ‹_›]
  | _ => cases h

theorem actionOf_answersOk {i : Instr} {s : State} (h : commandError i s = none) : AnswersOk s (actionOf i s) := by
  cases i with
  | rdreg r => exact .of_respond _ rfl rfl
  | wrreg r v => exact .of_respond _ (s.writeReg_responses r v) (s.writeReg_status r v)
  | rdbuf sp addr => exact .of_respond _ rfl rfl
  | wrbuf sp addr x => exact .of_respond _ (s.memWrite_responses sp _ _) (s.memWrite_status sp _ _)
  | hcsm => exact .of_respond _ rfl rfl
  | hvfy => exact .of_respond _ rfl rfl
  | henc => exact .of_respond _ rfl rfl
  | hdec => exact .of_respond _ rfl rfl
  | fset f v => exact .of_respond _ rfl rfl
  | fget f => exact .of_respond _ rfl rfl
  | noflg => exact .of_respond _ rfl rfl
  | menc plen =>
    rw [commandError] at h
    split at h
    · cases h
    · rw [actionOf, if_neg ‹_›]
      exact .of_respond _ (s.mencWrites_responses plen) (s.mencWrites_status plen)
  | mdec =>
    rw [commandError] at h
    split at h
    · cases h
    · split at h
      · cases h
      · rw [actionOf, if_neg ‹_›, if_neg ‹_›]
        exact .of_respond _ s.mdecWrites_responses s.mdecWrites_status

theorem commandError_eq_payloadTooLarge_iff {i : Instr} {s : State} :
    commandError i s = some .payloadTooLarge ↔ ∃ plen, i = .menc plen ∧ 255 < plen.toNat := by
  cases i with
  | mdec => cases hh : s.headerCheck <;> cases hm : s.messageCheck <;> simp [commandError, hh, hm]
  | _ => simp [commandError]

theorem commandError_eq_headerChecksumMismatch_iff {i : Instr} {s : State} :
    commandError i s = some .headerChecksumMismatch ↔ i = .mdec ∧ s.headerCheck = false := by
  cases i with
  | mdec => cases hh : s.headerCheck <;> cases hm : s.messageCheck <;> simp [commandError, hh, hm]
  | _ => simp [commandError]

theorem commandError_eq_messageChecksumMismatch_iff {i : Instr} {s : State} :
    commandError i s = some .messageChecksumMismatch ↔
      i = .mdec ∧ s.headerCheck = true ∧ s.messageCheck = false := by
  cases i with
  | mdec => cases hh : s.headerCheck <;> cases hm : s.messageCheck <;> simp [commandError, hh, hm]
  | _ => simp [commandError]

theorem commandError_ne_illegalCommand (i : Instr) (s : State) : commandError i s ≠ some .illegalCommand := by
  cases i with
  | mdec => cases hh : s.headerCheck <;> cases hm : s.messageCheck <;> simp [commandError, hh, hm]
  | _ => simp [commandError]

/-! ## The error of a word -/

/-- The error a word ends with when a non-fatal block processes it. -/
def wordError (w : Word64) (s : State) : Option ErrorKind :=
  match decode w with
  | .ok i => commandError i s
  | .error _ => some .illegalCommand

section
variable {w : Word64} {s : State}

theorem wordError_of_ok {i : Instr} (h : decode w = .ok i) : wordError w s = commandError i s := by
  rw [wordError, h]

theorem wordError_of_error {e : DecodeError} (h : decode w = .error e) : wordError w s = some .illegalCommand := by
  rw [wordError, h]

theorem decode_mdec_iff : decode w = .ok .mdec ↔ LegalWord w ∧ opNum w = 0x31 := by
  refine ⟨fun h => ⟨legalWord_of_decode h, decode_opNum h⟩, fun ⟨hl, hop⟩ => ?_⟩
  obtain ⟨i, hi⟩ := decode_of_legalWord hl
  rw [decode_opNum hi] at hop
  cases i with
  | mdec => exact hi
  | _ => simp [opcode] at hop

theorem decode_menc_iff {plen : Half} :
    decode w = .ok (.menc plen) ↔ LegalWord w ∧ opNum w = 0x30 ∧ bField w = plen := by
  constructor
  · intro h
    refine ⟨legalWord_of_decode h, decode_opNum h, ?_⟩
    rw [← (decode_sound h).2, encode, bField_packWord]
  · rintro ⟨hl, hop, rfl⟩
    obtain ⟨i, hi⟩ := decode_of_legalWord hl
    rw [decode_opNum hi] at hop
    cases i with
    | menc plen => rw [hi, ← (decode_sound hi).2, encode, bField_packWord]
    | _ => simp [opcode] at hop

theorem wordError_eq_illegalCommand_iff : wordError w s = some .illegalCommand ↔ ¬ LegalWord w := by
  rw [← decode_ok_iff_legalWord]
  cases h : decode w with
  | ok i => simp [wordError_of_ok h, commandError_ne_illegalCommand]
  | error e => simp [wordError_of_error h]

/-- Every other error is one of the command the word decodes to. -/
theorem wordError_eq_some_iff {k : ErrorKind} (hk : k ≠ .illegalCommand) :
    wordError w s = some k ↔ ∃ i, decode w = .ok i ∧ commandError i s = some k := by
  cases h : decode w with
  | ok i => simp [wordError_of_ok h]
  | error e => simp [wordError_of_error h, hk.symm]

theorem wordError_eq_payloadTooLarge_iff :
    wordError w s = some .payloadTooLarge ↔ LegalWord w ∧ opNum w = 0x30 ∧ 255 < bNum w := by
  rw [wordError_eq_some_iff (by decide), ← toNat_bField]
  simp only [commandError_eq_payloadTooLarge_iff]
  constructor
  · rintro ⟨_, hi, plen, rfl, hlen⟩
    obtain ⟨hl, hop, rfl⟩ := decode_menc_iff.1 hi
    exact ⟨hl, hop, hlen⟩
  · rintro ⟨hl, hop, hlen⟩
    exact ⟨_, decode_menc_iff.2 ⟨hl, hop, rfl⟩, _, rfl, hlen⟩

theorem wordError_eq_headerChecksumMismatch_iff :
    wordError w s = some .headerChecksumMismatch ↔ LegalWord w ∧ opNum w = 0x31 ∧ ¬ WireHeaderValid s := by
  rw [wordError_eq_some_iff (by decide), ← and_assoc, ← decode_mdec_iff, ← State.headerCheck_iff, Bool.not_eq_true]
  simp only [commandError_eq_headerChecksumMismatch_iff]
  exact ⟨fun ⟨_, hi, hm, hh⟩ => ⟨hm ▸ hi, hh⟩, fun ⟨hi, hh⟩ => ⟨_, hi, rfl, hh⟩⟩

theorem wordError_eq_messageChecksumMismatch_iff :
    wordError w s = some .messageChecksumMismatch ↔
      LegalWord w ∧ opNum w = 0x31 ∧ WireHeaderValid s ∧ ¬ WireMessageValid s := by
  rw [wordError_eq_some_iff (by decide), ← and_assoc, ← decode_mdec_iff, ← State.headerCheck_iff,
    ← State.messageCheck_iff, Bool.not_eq_true]
  simp only [commandError_eq_messageChecksumMismatch_iff]
  exact ⟨fun ⟨_, hi, hm, hc⟩ => ⟨hm ▸ hi, hc⟩, fun ⟨hi, hc⟩ => ⟨_, hi, rfl, hc⟩⟩

/-! ## A word processed by a non-fatal block -/

theorem processWord_of_wordError {k : ErrorKind} (hf : s.fatal = false) (h : wordError w s = some k) :
    processWord w s = .next (s.raise k) := by
  cases hd : decode w with
  | ok i =>
    rw [wordError_of_ok hd] at h
    rw [processWord_ok hd, exec_run (decode_sound hd).1 hf, actionOf_of_commandError h]
  | error e =>
    rw [wordError_of_error hd] at h
    cases h
    rw [processWord_error hd, State.illegalWord_of_nonfatal hf]

theorem processWord_answersOk (hf : s.fatal = false) (h : wordError w s = none) :
    ∃ t, processWord w s = .next t ∧ AnswersOk s t := by
  cases hd : decode w with
  | ok i =>
    rw [wordError_of_ok hd] at h
    exact ⟨_, by rw [processWord_ok hd, exec_run (decode_sound hd).1 hf], actionOf_answersOk h⟩
  | error e =>
    rw [wordError_of_error hd] at h
    cases h

end

/-! ## The response codes -/

theorem ErrorKind.code_inj {k k' : ErrorKind} : k.code = k'.code ↔ k = k' := by
  cases k <;> cases k' <;> decide

theorem ErrorKind.code_ne_ok (k : ErrorKind) : k.code ≠ .ok := by cases k <;> decide

theorem ErrorKind.code_ne_halted (k : ErrorKind) : k.code ≠ .halted := by cases k <;> decide

theorem ErrorKind.isFatal_of_code {k : ErrorKind} (h : k.code = .payloadTooLarge ∨ k.code = .illegalCommand) :
    k.isFatal = true := by
  cases k <;> simp [ErrorKind.code, ErrorKind.isFatal] at h ⊢

theorem ErrorKind.not_isFatal_of_code {k : ErrorKind}
    (h : k.code = .headerChecksumMismatch ∨ k.code = .messageChecksumMismatch) : k.isFatal = false := by
  cases k <;> simp [ErrorKind.code, ErrorKind.isFatal] at h ⊢

/-- The response of a non-fatal block carries the code of an error exactly when the word ends with that error. -/
theorem processWord_code {s : State} (hf : s.fatal = false) (w : Word64) :
    ∃ t r, processWord w s = .next t ∧ t.responses = s.responses ++ [r] ∧
      (∀ k : ErrorKind, r.code = k.code ↔ wordError w s = some k) ∧ r.code ≠ .halted := by
  cases h : wordError w s with
  | some k =>
    refine ⟨_, _, processWord_of_wordError hf h, s.raise_responses k, fun k' => ?_, k.code_ne_halted⟩
    rw [Option.some_inj]
    exact ErrorKind.code_inj
  | none =>
    obtain ⟨t, ht, ⟨v, hv⟩, -⟩ := processWord_answersOk hf h
    refine ⟨t, _, ht, hv, fun k => ?_, nofun⟩
    simp [k.code_ne_ok.symm]

/-- Settles O42: the response's code is that of the word's error, and each error has its one cause. -/
theorem errorsAreRaisedExactlyWhenTheirCauseHolds : Obligations.ErrorsAreRaisedExactlyWhenTheirCauseHolds := by
  intro s w hf
  obtain ⟨t, r, ht, hr, hcode, hhalted⟩ := processWord_code hf w
  exact ⟨t, r, ht, hr, (hcode .illegalCommand).trans wordError_eq_illegalCommand_iff,
    (hcode .payloadTooLarge).trans wordError_eq_payloadTooLarge_iff,
    (hcode .headerChecksumMismatch).trans wordError_eq_headerChecksumMismatch_iff,
    (hcode .messageChecksumMismatch).trans wordError_eq_messageChecksumMismatch_iff, hhalted⟩

end Sys2Proof.Machine
end

section
/-! PROOFS. What a word does to STATUS: a halted block only answers (60_exceptions.md R105), and an error writes STATUS and
nothing else (R109, R110). -/

namespace Sys2Proof.Machine

/-! ## The halted block -/

theorem eq_rdreg_or_rdbuf_of_isReadInstr {i : Instr} (h : isReadInstr i = true) :
    (∃ r, i = .rdreg r) ∨ ∃ sp addr, i = .rdbuf sp addr := by
  cases i with
  | rdreg r => exact .inl ⟨r, rfl⟩
  | rdbuf sp addr => exact .inr ⟨sp, addr, rfl⟩
  | _ => cases h

theorem actionOf_read {i : Instr} (h : isReadInstr i = true) (s : State) : ∃ v, actionOf i s = s.respond v := by
  rcases eq_rdreg_or_rdbuf_of_isReadInstr h with ⟨r, rfl⟩ | ⟨sp, addr, rfl⟩
  · exact ⟨_, rfl⟩
  · exact ⟨_, rfl⟩

/-- A word that decodes to a read runs in every state. -/
theorem processWord_read {w : Word64} {i : Instr} (h : decode w = .ok i) (hr : isReadInstr i = true) (s : State) :
    processWord w s = .next (actionOf i s) := by
  rw [processWord_ok h, exec_read hr (decode_sound h).1]

/-- Every word that decodes to no read is refused by a halted block. -/
theorem processWord_refused {w : Word64} {s : State} (hf : s.fatal = true)
    (h : ∀ i, decode w = .ok i → isReadInstr i = false) : processWord w s = .next s.refuseHalted := by
  cases hd : decode w with
  | ok i => rw [processWord_ok hd, exec_eq_process, State.process_halted hf (by rw [h i hd, Bool.false_and])]
  | error e => rw [processWord_error hd, State.illegalWord_of_fatal hf]

/-- A halted block only answers, OK or Halted. -/
theorem processWord_of_fatal {s : State} (hf : s.fatal = true) (w : Word64) :
    ∃ r, processWord w s = .next (s.answer r) ∧ (r.code = .ok ∨ r.code = .halted) := by
  by_cases h : ∃ i, decode w = .ok i ∧ isReadInstr i = true
  · obtain ⟨i, hi, hr⟩ := h
    obtain ⟨v, hv⟩ := actionOf_read hr s
    exact ⟨⟨.ok, v⟩, by rw [processWord_read hi hr, hv, State.respond], .inl rfl⟩
  · refine ⟨⟨.halted, 0⟩, processWord_refused hf fun i hi => ?_, .inr rfl⟩
    exact Bool.eq_false_iff.2 fun hr => h ⟨i, hi, hr⟩

/-- Of the host's inputs only reset leaves the fatal condition. -/
theorem step_nonfatal_iff_reset {s t : State} (hf : s.fatal = true) (ht : step s = .next t) :
    t.fatal = false ↔ ∃ n rest, s.pending = .reset n :: rest := by
  rw [step] at ht
  split at ht
  next hp =>
    cases ht
    simp [hp, hf]
  next input rest hp =>
    cases input with
    | command w =>
      obtain ⟨r, hr, -⟩ := processWord_of_fatal (s := { s with pending := rest }) hf w
      cases hr.symm.trans ht
      have hstill : ({ s with pending := rest }.answer r).fatal = true := hf
      simp [hp, hstill]
    | reset n =>
      cases ht
      simp [hp]

/-- Settles O41: a read runs in every state and only answers, and a halted block refuses every other word. -/
theorem haltedBlockOnlyReads : Obligations.HaltedBlockOnlyReads := by
  intro s hf
  refine ⟨fun w r h => ?_, fun w sp addr h => ?_, fun w hreg hbuf => ?_, fun t => step_nonfatal_iff_reset hf⟩
  · exact processWord_read h rfl s
  · rw [step_present, processWord_read h rfl, BitVec.ofNat_toNat]
    rfl
  · refine processWord_refused hf fun i hi => Bool.eq_false_iff.2 fun hr => ?_
    rcases eq_rdreg_or_rdbuf_of_isReadInstr hr with ⟨r, rfl⟩ | ⟨sp, addr, rfl⟩
    · exact hreg r hi
    · exact hbuf sp addr hi

/-! ## What an error writes -/

theorem State.toNat_cause_raise (s : State) (k : ErrorKind) : (s.raise k).cause.toNat = k.code.num.toNat := by
  rw [State.cause_raise]
  cases k <;> rfl

/-- Every word is answered without touching STATUS, or raises an error of a non-fatal block. -/
theorem processWord_keeps_status_or_raises (w : Word64) (s : State) :
    (∃ t r, processWord w s = .next t ∧ t.responses = s.responses ++ [r] ∧ t.status = s.status ∧
      (r.code = .ok ∨ r.code = .halted)) ∨
    (s.fatal = false ∧ ∃ k, processWord w s = .next (s.raise k)) := by
  cases hf : s.fatal with
  | true =>
    obtain ⟨r, hr, hcode⟩ := processWord_of_fatal hf w
    exact .inl ⟨_, r, hr, rfl, rfl, hcode⟩
  | false =>
    cases h : wordError w s with
    | some k => exact .inr ⟨rfl, k, processWord_of_wordError hf h⟩
    | none =>
      obtain ⟨t, ht, ⟨v, hv⟩, hs⟩ := processWord_answersOk hf h
      exact .inl ⟨t, _, ht, hv, hs, .inl rfl⟩

/-- Settles O43: an error is raised, which writes STATUS and the response, and every other answer leaves STATUS alone. -/
theorem errorsWriteStatusOnly : Obligations.ErrorsWriteStatusOnly := by
  intro s t w r ht hr
  rw [step_present] at ht
  rcases processWord_keeps_status_or_raises w s with ⟨t', r', ht', hr', hs, hcode⟩ | ⟨hf, k, hk⟩
  · cases ht'.symm.trans ht
    obtain rfl : r' = r := by simpa using hr'.symm.trans hr
    refine ⟨fun h => ?_, fun h => ?_, fun _ => hs⟩
    · rcases hcode with hcode | hcode <;> simp [hcode] at h
    · rcases hcode with hcode | hcode <;> simp [hcode] at h
  · cases hk.symm.trans ht
    obtain rfl : ⟨k.code, 0⟩ = r := by simpa using hr
    refine ⟨fun h => ⟨rfl, s.toNat_cause_raise k, hf, ?_⟩, fun h => ⟨rfl, s.toNat_cause_raise k, ?_⟩, fun h => ?_⟩
    · rw [State.fatal_raise, hf, ErrorKind.not_isFatal_of_code h, Bool.or_false]
    · rw [State.fatal_raise, ErrorKind.isFatal_of_code h, Bool.or_true]
    · rcases h with h | h
      · exact absurd h k.code_ne_ok
      · exact absurd h k.code_ne_halted

end Sys2Proof.Machine
end

section
/-! PROOFS. Encoder and decoder are inverse to each other (30_encoding.md R44 to R52): the four fields of an encoded
instruction are the operands its own decoder accepts. -/

namespace Sys2Proof.Machine

theorem decode_packWord (op a : Byte) (b : Half) (imm : Word) :
    decode (packWord op a b imm) = decodeFields op a b imm := by
  rw [decode, opField_packWord, aField_packWord, bField_packWord, immField_packWord]

theorem setWidth_setWidth_byte (x : Byte) : (x.setWidth 32).setWidth 8 = x := by
  rw [BitVec.setWidth_setWidth_of_le x (by decide), BitVec.setWidth_eq]

theorem toNat_setWidth_byte_lt (x : Byte) : (x.setWidth 32).toNat < 256 := by
  rw [BitVec.toNat_setWidth_of_le (by decide)]
  exact x.isLt

/-- 30_encoding.md R50: no bit of an operand is lost. -/
theorem decode_encode {i : Instr} (hi : i.wf = true) : decode (encode i) = .ok i := by
  cases i with
  | rdreg r =>
    rw [encode, decode_packWord]
    exact decodeRdreg_eq_ok_iff.2 ⟨r, rfl, rfl, rfl, rfl⟩
  | wrreg r v =>
    rw [encode, decode_packWord]
    exact decodeWrreg_eq_ok_iff.2 ⟨r, rfl, rfl, hi, rfl⟩
  | rdbuf sp addr =>
    rw [encode, decode_packWord]
    exact decodeRdbuf_eq_ok_iff.2 ⟨sp, rfl, rfl, hi, rfl⟩
  | wrbuf sp addr x =>
    rw [encode, decode_packWord]
    exact decodeWrbuf_eq_ok_iff.2
      ⟨sp, by rw [setWidth_setWidth_byte], rfl, hi, toNat_setWidth_byte_lt x⟩
  | fset f v =>
    rw [encode, decode_packWord]
    exact decodeFset_eq_ok_iff.2 ⟨f, v, rfl, rfl, rfl, rfl⟩
  | fget f =>
    rw [encode, decode_packWord]
    exact decodeFget_eq_ok_iff.2 ⟨f, rfl, rfl, rfl, rfl⟩
  | menc plen =>
    rw [encode, decode_packWord]
    exact decodeMenc_eq_ok_iff.2 ⟨rfl, rfl, rfl⟩
  | hcsm | hvfy | henc | hdec | noflg | mdec =>
    rw [encode, decode_packWord]
    exact decodePlain_eq_ok_iff.2 ⟨rfl, rfl, rfl, rfl⟩

/-- Settles O1, constructor by constructor. -/
theorem encodeThenDecodeGivesTheInstructionBack : Obligations.EncodeThenDecodeGivesTheInstructionBack :=
  fun _ hi => decode_encode hi

/-- Settles O2: each operand decoder accepts only the fields its instruction is encoded with. -/
theorem decodedWordIsTheInstructionsOnlyWord : Obligations.DecodedWordIsTheInstructionsOnlyWord :=
  fun _ _ h => decode_sound h

theorem decode_of_encode_eq {w : Word64} {i : Instr} (hi : i.wf = true) (hw : encode i = w) : decode w = .ok i := by
  rw [← hw, decode_encode hi]

/-- Settles O5: each word is the encoding of the command the spec lists beside it. -/
theorem sampleWordsDecodeToTheirCommands : Obligations.SampleWordsDecodeToTheirCommands :=
  ⟨decode_of_encode_eq rfl (by decide), decode_of_encode_eq (by decide) (by decide),
    decode_of_encode_eq (by decide) (by decide), decode_of_encode_eq (by decide) (by decide),
    decode_of_encode_eq rfl (by decide), decode_of_encode_eq rfl (by decide), decode_of_encode_eq rfl (by decide),
    decode_of_encode_eq rfl (by decide)⟩

end Sys2Proof.Machine
end

section
/-! PROOFS. The invariants (10_state.md R16 to R19, 70_reset_and_hazards.md R130): what a word and a step can do, said
once, and from it the canonical buffers, the legal STATUS and its agreement with the responses. -/

namespace Sys2Proof.Machine

/-! ## Everything a word and a step can do -/

/-- A read ends with no error. -/
theorem commandError_of_isReadInstr {i : Instr} (h : isReadInstr i = true) (s : State) : commandError i s = none := by
  rcases eq_rdreg_or_rdbuf_of_isReadInstr h with ⟨r, rfl⟩ | ⟨sp, addr, rfl⟩ <;> rfl

/-- What one command word makes of a state: a halted block refuses it, a non-fatal block raises an error, or a
well-formed command runs to an OK answer. -/
inductive WordOutcome (s : State) : State → Prop where
  | refused (hf : s.fatal = true) : WordOutcome s s.refuseHalted
  | raised (hf : s.fatal = false) (k : ErrorKind) : WordOutcome s (s.raise k)
  | ran (i : Instr) (hwf : i.wf = true) (hok : commandError i s = none) : WordOutcome s (actionOf i s)

theorem processWord_outcome (w : Word64) (s : State) : ∃ t, processWord w s = .next t ∧ WordOutcome s t := by
  rcases processWord_cases w s with ⟨h, hf, -⟩ | ⟨h, hf, -⟩ | ⟨i, -, hwf, hread, h⟩
  · exact ⟨_, h, .refused hf⟩
  · exact ⟨_, h, .raised hf .illegalCommand⟩
  · refine ⟨_, h, ?_⟩
    cases hk : commandError i s with
    | none => exact .ran i hwf hk
    | some k =>
      rw [actionOf_of_commandError hk]
      refine .raised (Bool.eq_false_iff.2 fun hf => ?_) k
      rw [commandError_of_isReadInstr (hread hf)] at hk
      cases hk

/-- A property that neither reads the host's inputs nor fails right after a reset event is kept by every step if it is
kept by every word. -/
theorem step_keeps {P : State → Prop} (hpending : ∀ s p, P s → P { s with pending := p })
    (hreset : ∀ s n, P (State.resetEvent s n)) (hword : ∀ s t, P s → WordOutcome s t → P t) {s t : State}
    (hs : P s) (ht : step s = .next t) : P t := by
  rw [step] at ht
  split at ht
  next =>
    cases ht
    exact hs
  next input rest _ =>
    cases input with
    | command w =>
      obtain ⟨u, hu, houtcome⟩ := processWord_outcome w { s with pending := rest }
      cases hu.symm.trans ht
      exact hword _ _ (hpending s rest hs) houtcome
    | reset n =>
      cases ht
      exact hreset _ n

/-! ## The buffers keep their canonical form -/

/-- Both buffers list rising addresses that they have (10_state.md R18, R19). -/
def BuffersWf (s : State) : Prop := Memory.wf 1000 s.pbuf ∧ Memory.wf 1016 s.wbuf

theorem BuffersWf.memWrite {s : State} (h : BuffersWf s) {sp : Space} {a : Nat} {bs : List Byte}
    (hfit : a + bs.length ≤ sp.size) : BuffersWf (s.memWrite sp a bs) := by
  obtain ⟨hp, hw⟩ := h
  cases sp with
  | pbuf => exact ⟨Memory.wf_store hp a bs hfit, hw⟩
  | wbuf => exact ⟨hp, Memory.wf_store hw a bs hfit⟩

theorem BuffersWf.writeReg {s : State} (h : BuffersWf s) (r : HdrReg) (v : Word) : BuffersWf (s.writeReg r v) := by
  rw [BuffersWf, State.writeReg_pbuf, State.writeReg_wbuf]
  exact h

theorem State.length_mencFrame (s : State) {plen : Half} (h : plen.toNat ≤ 255) (m : Word) :
    (s.mencFrame plen m).length = 1016 := by
  rw [State.mencFrame, List.length_append, List.length_append, s.length_mencPayload plen (by omega), length_hdrBytes,
    length_be32]

theorem BuffersWf.mencWrites {s : State} (h : BuffersWf s) {plen : Half} (hlen : plen.toNat ≤ 255) :
    BuffersWf (s.mencWrites plen) := by
  rw [State.mencWrites_eq]
  refine BuffersWf.memWrite (sp := .wbuf) h ?_
  rw [s.length_mencFrame hlen]
  decide

theorem BuffersWf.mdecWrites {s : State} (h : BuffersWf s) : BuffersWf s.mdecWrites := by
  refine BuffersWf.memWrite (sp := .pbuf) h ?_
  rw [State.wirePayload, State.length_memRead]
  decide

theorem buffersWf_actionOf {i : Instr} (hwf : i.wf = true) {s : State} (h : BuffersWf s) :
    BuffersWf (actionOf i s) := by
  cases i with
  | wrreg r v => exact h.writeReg r v
  | wrbuf sp addr x =>
    have haddr : addr.toNat < sp.size := of_decide_eq_true hwf
    exact BuffersWf.memWrite (bs := [x]) h haddr
  | henc =>
    refine BuffersWf.memWrite (sp := .wbuf) (a := 0) (bs := hdrBytes s.header) h ?_
    rw [length_hdrBytes]
    decide
  | menc plen =>
    rw [actionOf]
    split
    · exact h
    · exact h.mencWrites (plen := plen) (by omega)
  | mdec =>
    rw [actionOf]
    split
    · exact h
    · split
      · exact h
      · exact h.mdecWrites
  | rdreg | rdbuf | hcsm | hvfy | hdec | fset | fget | noflg => exact h

/-! ## STATUS keeps a legal value -/

/-- The values of STATUS whose fields go together (10_state.md R16). -/
abbrev LegalStatus (x : Byte) : Prop := x = 0x00 ∨ x = 0x10 ∨ x = 0x20 ∨ x = 0x31 ∨ x = 0x41

/-- From a non-fatal value, so that a fatal CAUSE is never overwritten by another one (60_exceptions.md R105). -/
theorem legalStatus_statusAfter {x : Byte} (h : LegalStatus x) (hf : fatalBit x = false) (k : ErrorKind) :
    LegalStatus (statusAfter x k) := by
  rcases h with rfl | rfl | rfl | rfl | rfl
  · cases k <;> decide
  · cases k <;> decide
  · cases k <;> decide
  · exact absurd hf (by decide)
  · exact absurd hf (by decide)

theorem blockInv_iff {s : State} : BlockInv s ↔ BuffersWf s ∧ LegalStatus s.status := and_assoc.symm

theorem BlockInv.resetEvent (s : State) (n : Nat) : BlockInv (s.resetEvent n) :=
  ⟨Memory.wf_nil 1000, Memory.wf_nil 1016, .inl rfl⟩

theorem BlockInv.of_wordOutcome {s t : State} (h : BlockInv s) (ht : WordOutcome s t) : BlockInv t := by
  rw [blockInv_iff] at h ⊢
  obtain ⟨hbuf, hstatus⟩ := h
  cases ht with
  | refused hf => exact ⟨hbuf, hstatus⟩
  | raised hf k => exact ⟨hbuf, legalStatus_statusAfter hstatus hf k⟩
  | ran i hwf hok =>
    obtain ⟨-, hsame⟩ := actionOf_answersOk hok
    rw [hsame]
    exact ⟨buffersWf_actionOf hwf hbuf, hstatus⟩

/-- Settles O44: stores stay inside their buffer, and only a non-fatal STATUS takes a new CAUSE. -/
theorem stepKeepsBuffersAndStatusLegal : Obligations.StepKeepsBuffersAndStatusLegal := by
  intro s t hs ht
  exact step_keeps (P := BlockInv) (fun _ _ h => h) BlockInv.resetEvent (fun _ _ => BlockInv.of_wordOutcome) hs ht

/-! ## STATUS agrees with the responses -/

theorem lastErrorNum_append (log : List Response) (r : Response) :
    lastErrorNum (log ++ [r]) = if r.code.isError then r.code.num.toNat else lastErrorNum log := by
  rw [lastErrorNum, lastErrorNum, List.reverse_append, List.reverse_singleton, List.singleton_append]
  cases h : r.code.isError with
  | true => rw [List.find?_cons_of_pos (by exact h), if_pos rfl]
  | false => rw [List.find?_cons_of_neg (by simp [h]), if_neg Bool.false_ne_true]

theorem goneWrong_append {s t : State} {r : Response} (h : t.responses = s.responses ++ [r]) :
    GoneWrong t ↔ GoneWrong s ∨ r.code.isWrong = true := by
  rw [GoneWrong, h]
  simp [GoneWrong, or_and_right, exists_or]

/-- One more response keeps the agreement when STATUS takes it in: FATAL for the codes 3 to 5, CAUSE for 1 to 4. -/
theorem RunInv.append {s t : State} {r : Response} (h : RunInv s) (hlog : t.responses = s.responses ++ [r])
    (hfatal : t.fatal = true ↔ s.fatal = true ∨ r.code.isWrong = true)
    (hcause : t.cause.toNat = if r.code.isError then r.code.num.toNat else s.cause.toNat)
    (hval : r.code ≠ .ok → r.val = 0) : RunInv t := by
  obtain ⟨hwrong, hlast, hvals⟩ := h
  refine ⟨?_, ?_, ?_⟩
  · rw [hfatal, goneWrong_append hlog, hwrong]
  · rw [hcause, hlog, lastErrorNum_append, hlast]
  · intro r' hr'
    rw [hlog, List.mem_append, List.mem_singleton] at hr'
    rcases hr' with hr' | rfl
    · exact hvals r' hr'
    · exact hval

theorem ErrorKind.isWrong_code (k : ErrorKind) : k.code.isWrong = k.isFatal := by cases k <;> rfl

theorem ErrorKind.isError_code (k : ErrorKind) : k.code.isError = true := by cases k <;> rfl

theorem RunInv.resetEvent (s : State) (n : Nat) : RunInv (s.resetEvent n) := by
  refine ⟨?_, ?_, nofun⟩
  · rw [State.resetEvent_fatal]
    simp [GoneWrong]
  · rw [State.resetEvent_cause]
    rfl

theorem RunInv.of_wordOutcome {s t : State} (h : RunInv s) (ht : WordOutcome s t) : RunInv t := by
  cases ht with
  | refused hf =>
    refine h.append s.refuseHalted_responses ?_ rfl fun _ => rfl
    rw [State.refuseHalted_fatal, hf]
    simp
  | raised hf k =>
    refine h.append (s.raise_responses k) ?_ ?_ fun _ => rfl
    · rw [State.fatal_raise, k.isWrong_code, Bool.or_eq_true]
    · rw [s.toNat_cause_raise, k.isError_code, if_pos rfl]
  | ran i hwf hok =>
    obtain ⟨⟨v, hlog⟩, hsame⟩ := actionOf_answersOk hok
    refine h.append hlog ?_ ?_ fun hne => absurd rfl hne
    · rw [State.fatal, hsame]
      simp [State.fatal, Code.isWrong]
    · rw [State.cause, hsame]
      rfl

/-- Settles O45: every word appends one response, and STATUS takes in exactly what the response says. -/
theorem stepKeepsStatusTrueToTheRun : Obligations.StepKeepsStatusTrueToTheRun := by
  intro s t hs ht
  exact step_keeps (P := RunInv) (fun _ _ h => h) RunInv.resetEvent (fun _ _ => RunInv.of_wordOutcome) hs ht

/-- Settles O46: the reset state is what a reset event makes of it. -/
theorem resetMeetsTheInvariants : Obligations.ResetMeetsTheInvariants :=
  ⟨BlockInv.resetEvent State.reset 0, RunInv.resetEvent State.reset 0⟩

end Sys2Proof.Machine
end

section
/-! PROOFS. One step (10_state.md R21, 70_reset_and_hazards.md R117 to R129): the presented input is taken, a word is
answered once, and a response is one 64-bit word (30_encoding.md R47). -/

namespace Sys2Proof.Machine

/-! ## Taking the presented input -/

theorem step_of_pending_nil {s : State} (h : s.pending = []) : step s = .next s := by
  rw [step, h]

theorem step_of_pending_cons {s : State} {input : HostInput} {rest : List HostInput} (h : s.pending = input :: rest) :
    step s = takeInput input { s with pending := rest } := by
  rw [step, h]

/-- Settles O6. -/
theorem stepExecutesThePresentedCommand : Obligations.StepExecutesThePresentedCommand := by
  intro s w rest i hp hd
  rw [step_of_pending_cons hp, takeInput, processWord_ok hd]

/-- Settles O7. -/
theorem stepIdlesWhenNothingIsPresented : Obligations.StepIdlesWhenNothingIsPresented :=
  fun _ hp => step_of_pending_nil hp

/-- After a reset event no buffer lists a byte, so each reads as the new contents (10_state.md R24). -/
theorem State.resetEvent_readByte (s : State) (n : Nat) (sp : Space) (a : Nat) :
    (s.resetEvent n).readByte sp a = unwritten n sp a := by
  cases sp <;> rfl

/-- Settles O8. -/
theorem resetEventClearsTheBlock : Obligations.ResetEventClearsTheBlock := by
  intro s n rest hp
  refine ⟨{ s with pending := rest }.resetEvent n, by rw [step_of_pending_cons hp, takeInput],
    rfl, rfl, rfl, rfl, rfl, rfl, rfl, rfl, fun a => ?_, fun a => ?_, rfl, rfl, rfl⟩
  · exact State.resetEvent_readByte _ n .pbuf a
  · exact State.resetEvent_readByte _ n .wbuf a

/-! ## A word is answered once -/

/-- The fields no command writes: what the host still presents, the name of the unspecified contents, `MsgSum`. -/
def SameSetting (s t : State) : Prop := t.pending = s.pending ∧ t.fill = s.fill ∧ t.msgSum = s.msgSum

theorem actionOf_sameSetting (i : Instr) (s : State) : SameSetting s (actionOf i s) := by
  cases i with
  | wrreg r v => exact ⟨s.writeReg_pending r v, s.writeReg_fill r v, s.writeReg_msgSum r v⟩
  | wrbuf sp addr x => exact ⟨s.memWrite_pending sp _ _, s.memWrite_fill sp _ _, s.memWrite_msgSum sp _ _⟩
  | menc plen =>
    rw [actionOf, State.mencWrites_eq]
    split <;> exact ⟨rfl, rfl, rfl⟩
  | mdec =>
    rw [actionOf]
    split
    · exact ⟨rfl, rfl, rfl⟩
    · split <;> exact ⟨rfl, rfl, rfl⟩
  | rdreg | rdbuf | hcsm | hvfy | henc | hdec | fset | fget | noflg => exact ⟨rfl, rfl, rfl⟩

theorem WordOutcome.sameSetting {s t : State} (h : WordOutcome s t) : SameSetting s t := by
  cases h with
  | refused hf => exact ⟨rfl, rfl, rfl⟩
  | raised hf k => exact ⟨rfl, rfl, rfl⟩
  | ran i hwf hok => exact actionOf_sameSetting i s

/-- 30_encoding.md R47: one response, with no value unless it is OK. -/
theorem WordOutcome.responses {s t : State} (h : WordOutcome s t) :
    ∃ r : Response, t.responses = s.responses ++ [r] ∧ (r.code ≠ .ok → r.val = 0) := by
  cases h with
  | refused hf => exact ⟨_, s.refuseHalted_responses, fun _ => rfl⟩
  | raised hf k => exact ⟨_, s.raise_responses k, fun _ => rfl⟩
  | ran i hwf hok =>
    obtain ⟨⟨v, hv⟩, -⟩ := actionOf_answersOk hok
    exact ⟨_, hv, fun hne => absurd rfl hne⟩

/-- Settles O10, from the three outcomes of a word. -/
theorem everyWordIsAnsweredExactlyOnce : Obligations.EveryWordIsAnsweredExactlyOnce := by
  intro s w
  obtain ⟨t, ht, houtcome⟩ := processWord_outcome w s
  obtain ⟨r, hr, hval⟩ := houtcome.responses
  exact ⟨t, r, ht, hr, hval, houtcome.sameSetting⟩

/-! ## The response word -/

theorem Response.toNat_word (r : Response) : r.word.toNat = r.code.num.toNat * 2 ^ 56 + r.val.toNat := by
  have hcode : r.code.num.toNat * 2 ^ 24 ||| (0#24).toNat = r.code.num.toNat * 2 ^ 24 := Nat.or_zero _
  have hval : r.code.num.toNat * 2 ^ 24 * 2 ^ 32 ||| r.val.toNat = r.code.num.toNat * 2 ^ 24 * 2 ^ 32 + r.val.toNat := by
    rw [Nat.mul_comm, ← Nat.two_pow_add_eq_or_of_lt r.val.isLt]
  rw [Response.word, BitVec.toNat_append, BitVec.toNat_append, Nat.shiftLeft_eq, Nat.shiftLeft_eq, hcode, hval]
  omega

/-- Settles O11: the layout, with the number of each code (60_exceptions.md R100). -/
theorem responseWordLayout : Obligations.ResponseWordLayout := by
  intro r
  rw [r.toNat_word]
  cases r.code <;> rfl

end Sys2Proof.Machine
end

section
/-! PROOFS. The access commands (40_access.md R60 to R63): reads answer, a write changes its own register or byte. -/

namespace Sys2Proof.Machine

/-! ## Registers -/

/-- Settles O13: the value is the register zero-extended. -/
theorem rdregAnswersTheRegister : Obligations.RdregAnswersTheRegister := by
  intro s r
  refine ⟨s.readReg r, exec_read rfl rfl s, ?_⟩
  cases r with
  | seq | mcsum => rfl
  | ackn | win | flags | dlen | hcsum | status => exact BitVec.toNat_setWidth_of_le (by decide)

theorem exec_wrreg {s : State} (hf : s.fatal = false) {r : HdrReg} {v : Word} (hv : v.toNat < 2 ^ r.width) :
    exec (.wrreg r v) s = .next ((s.writeReg r v).respond 0) :=
  exec_run (i := .wrreg r v) ((fits_iff r v).2 hv) hf

/-- Settles O14, register by register. -/
theorem wrregWritesItsRegisterOnly : Obligations.WrregWritesItsRegisterOnly := by
  intro s v hf
  simp only [BitVec.ofNat_toNat]
  exact ⟨exec_wrreg hf (r := .seq) v.isLt,
    fun hv => ⟨exec_wrreg hf (r := .ackn) hv, exec_wrreg hf (r := .win) hv, exec_wrreg hf (r := .hcsum) hv⟩,
    fun hv => ⟨exec_wrreg hf (r := .flags) hv, exec_wrreg hf (r := .dlen) hv⟩⟩

/-- Settles O15: an ill-formed instruction is an illegal command (60_exceptions.md R107). -/
theorem illFormedOperandsRaiseIllegalCommand : Obligations.IllFormedOperandsRaiseIllegalCommand := by
  intro s i hi hf
  refine ⟨s.raise .illegalCommand, ?_, rfl, s.raise_illegalCommand_report.2⟩
  rw [exec_eq_process, hi, State.process_illegal hf]

/-! ## Buffer bytes -/

/-- Settles O16. -/
theorem rdbufAnswersTheByte : Obligations.RdbufAnswersTheByte := by
  intro s sp addr haddr
  have hholds : sp.holds addr = true := by cases sp <;> exact decide_eq_true haddr
  rw [BitVec.ofNat_toNat]
  exact exec_read (i := .rdbuf sp addr) rfl hholds s

/-- A one-byte write: its own address reads as written, every other byte of either buffer as before. -/
theorem State.readByte_memWrite_singleton (s : State) (sp : Space) (a : Nat) (x : Byte) :
    (s.memWrite sp a [x]).readByte sp a = x := by
  rw [State.readByte_memWrite, if_pos ⟨Nat.le_refl a, Nat.lt_succ_self a⟩, Nat.sub_self]
  rfl

theorem State.readByte_memWrite_singleton_of_ne (s : State) {sp sp' : Space} {a b : Nat} (x : Byte)
    (h : ¬ (sp' = sp ∧ b = a)) : (s.memWrite sp a [x]).readByte sp' b = s.readByte sp' b := by
  by_cases hsp : sp' = sp
  · subst hsp
    rw [State.readByte_memWrite, List.length_singleton, if_neg fun hb => h ⟨rfl, by omega⟩]
  · exact s.readByte_memWrite_of_ne hsp a [x] b

/-- Settles O17. -/
theorem wrbufWritesOneByteOnly : Obligations.WrbufWritesOneByteOnly := by
  intro s sp addr x hf haddr
  have hholds : sp.holds addr = true := by cases sp <;> exact decide_eq_true haddr
  refine ⟨(s.memWrite sp addr.toNat [x]).respond 0, exec_run (i := .wrbuf sp addr x) hholds hf, ?_, ?_,
    fun sp' a h => ?_⟩
  · cases sp <;> rfl
  · exact (State.answer_readByte _ _ _ _).trans (s.readByte_memWrite_singleton sp addr.toNat x)
  · exact (State.answer_readByte _ _ _ _).trans (s.readByte_memWrite_singleton_of_ne x h)

end Sys2Proof.Machine
end

section
/-! PROOFS. The header checksum (41_header_codec.md R66 to R68, R75) as arithmetic: a sum with end-around carry is the
plain sum folded into 16 bits, so `HdrSum` is a function of the plain sum of the five words. -/

namespace Sys2Proof.Machine

/-! ## Addition with end-around carry -/

theorem ocAdd16_comm (s w : Half) : ocAdd16 s w = ocAdd16 w s := by
  refine BitVec.eq_of_toNat_eq ?_
  rw [toNat_ocAdd16, toNat_ocAdd16, Nat.add_comm]

theorem ocAdd16_assoc (s w u : Half) : ocAdd16 (ocAdd16 s w) u = ocAdd16 s (ocAdd16 w u) := by
  have hs := s.isLt
  have hw := w.isLt
  have hu := u.isLt
  refine BitVec.eq_of_toNat_eq ?_
  rw [toNat_ocAdd16, toNat_ocAdd16 s w, toNat_ocAdd16 s, toNat_ocAdd16 w u]
  split_ifs <;> omega

theorem ocAdd16_zero (s : Half) : ocAdd16 s 0 = s := by
  have hs := s.isLt
  have hzero : (0 : Half).toNat = 0 := rfl
  refine BitVec.eq_of_toNat_eq ?_
  rw [toNat_ocAdd16, hzero]
  split <;> omega

/-- All ones is the other zero of ones'-complement addition. -/
theorem ocAdd16_allOnes {s : Half} (h : s ≠ 0) : ocAdd16 s 0xFFFF = s := by
  have hpos : s.toNat ≠ 0 := fun h0 => h (BitVec.eq_of_toNat_eq h0)
  have hones : (0xFFFF : Half).toNat = 0xFFFF := rfl
  refine BitVec.eq_of_toNat_eq ?_
  rw [toNat_ocAdd16, hones]
  split <;> omega

/-- Settles O19. -/
theorem onesComplementAdditionLaws : Obligations.OnesComplementAdditionLaws := by
  intro s w u
  exact ⟨toNat_ocAdd16 s w, ocAdd16_comm s w, ocAdd16_assoc s w u, ocAdd16_zero s, ocAdd16_allOnes, by decide⟩

/-! ## The sum of a list of words -/

/-- A plain sum folded into 16 bits: 0 only for 0, and otherwise its residue modulo 65535 among 1 to 65535. -/
def carryFold (T : Nat) : Nat := if T = 0 then 0 else (T - 1) % 65535 + 1

theorem carryFold_le (T : Nat) : carryFold T ≤ 65535 := by
  rw [carryFold]
  split <;> omega

/-- The fold tells apart two plain sums less than 65535 apart. -/
theorem carryFold_ne_of_lt {T T' : Nat} (h : T < T') (h' : T' < T + 65535) : carryFold T ≠ carryFold T' := by
  rw [carryFold, carryFold]
  split_ifs <;> omega

theorem toNat_ocAdd16_of_carryFold {s : Half} {T : Nat} (hs : s.toNat = carryFold T) (w : Half) :
    (ocAdd16 s w).toNat = carryFold (T + w.toNat) := by
  have hw := w.isLt
  rw [toNat_ocAdd16, hs, carryFold, carryFold]
  split_ifs <;> omega

theorem toNat_foldl_ocAdd16 (l : List Half) {s : Half} {T : Nat} (hs : s.toNat = carryFold T) :
    (l.foldl ocAdd16 s).toNat = carryFold (T + (l.map BitVec.toNat).sum) := by
  induction l generalizing s T with
  | nil => exact hs
  | cons w l ih =>
    rw [List.foldl_cons, ih (toNat_ocAdd16_of_carryFold hs w), List.map_cons, List.sum_cons, Nat.add_assoc]

/-! ## The checksum of the five words -/

/-- The five words `HdrSum` adds up (41_header_codec.md R67). -/
def hdrWords (B : List Byte) : List Half := (List.range 5).map (hdrWord B)

/-- Their plain sum, `T` in 41_header_codec.md R68. -/
def hdrTotal (B : List Byte) : Nat := ((hdrWords B).map BitVec.toNat).sum

theorem hdrSum_eq_foldl (B : List Byte) : hdrSum B = ~~~ ((hdrWords B).foldl ocAdd16 0) := rfl

theorem toNat_hdrSum (B : List Byte) : (hdrSum B).toNat = 0xFFFF - carryFold (hdrTotal B) := by
  rw [hdrSum_eq_foldl, BitVec.toNat_not, toNat_foldl_ocAdd16 (T := 0) _ rfl, Nat.zero_add]
  rfl

theorem hdrSum_eq_iff {B B' : List Byte} :
    hdrSum B = hdrSum B' ↔ carryFold (hdrTotal B) = carryFold (hdrTotal B') := by
  have h := carryFold_le (hdrTotal B)
  have h' := carryFold_le (hdrTotal B')
  rw [← BitVec.toNat_inj, toNat_hdrSum, toNat_hdrSum]
  omega

theorem hdrTotal_eq_sum_bytes (B : List Byte) : hdrTotal B =
    ((List.range 5).map fun i => (byteAt B (2 * i)).toNat * 256 + (byteAt B (2 * i + 1)).toNat).sum := by
  rw [hdrTotal, hdrWords, List.map_map]
  exact congrArg List.sum (List.map_congr_left fun i _ => toNat_u16be _ _)

theorem hdrSum_eq_zero_iff (B : List Byte) : hdrSum B = 0 ↔ 0 < hdrTotal B ∧ 65535 ∣ hdrTotal B := by
  have hzero : hdrSum B = 0 ↔ (hdrSum B).toNat = 0 := BitVec.toNat_inj.symm
  rw [hzero, toNat_hdrSum, carryFold]
  split <;> omega

theorem hdrSum_of_hdrTotal_eq_zero {B : List Byte} (h : hdrTotal B = 0) : hdrSum B = 0xFFFF := by
  refine BitVec.eq_of_toNat_eq ?_
  rw [toNat_hdrSum, h]
  rfl

theorem hdrSum_eq_of_perm {B B' : List Byte} (h : (hdrWords B).Perm (hdrWords B')) : hdrSum B' = hdrSum B := by
  rw [hdrSum_eq_iff, hdrTotal, hdrTotal, (h.map BitVec.toNat).sum_eq]

theorem hdrWords_congr {B B' : List Byte} (h : ∀ i < 10, byteAt B' i = byteAt B i) : hdrWords B' = hdrWords B := by
  refine List.map_congr_left fun i hi => ?_
  have hi5 : i < 5 := List.mem_range.1 hi
  rw [hdrWord, hdrWord, h _ (by omega), h _ (by omega)]

theorem hdrSum_congr {B B' : List Byte} (h : ∀ i < 10, byteAt B' i = byteAt B i) : hdrSum B' = hdrSum B := by
  rw [hdrSum_eq_foldl, hdrSum_eq_foldl, hdrWords_congr h]

/-- Settles O20: `HdrSum` is a function of the plain sum of the five words. -/
theorem headerSumIsTheComplementOfTheFoldedSum : Obligations.HeaderSumIsTheComplementOfTheFoldedSum := by
  intro B B'
  simp only [← hdrTotal_eq_sum_bytes]
  exact ⟨toNat_hdrSum B, hdrSum_eq_zero_iff B, hdrSum_of_hdrTotal_eq_zero, hdrSum_eq_of_perm, hdrSum_congr⟩

/-! ## One changed byte -/

/-- What byte `i` counts in the plain sum: the first byte of a word is the more significant one. -/
def byteWeight (i : Nat) : Nat := if i % 2 = 0 then 256 else 1

theorem byteWeight_eq (i : Nat) : byteWeight i = 256 ∨ byteWeight i = 1 := by
  rw [byteWeight]
  split
  · exact .inl rfl
  · exact .inr rfl

theorem hdrTotal_eq_sum_weights (B : List Byte) :
    hdrTotal B = ∑ i ∈ Finset.range 10, byteWeight i * (byteAt B i).toNat := by
  rw [hdrTotal_eq_sum_bytes]
  simp [byteWeight, Finset.sum_range_succ, List.range_succ]
  ring

/-- Two sequences that agree in all bytes but one: their plain sums are those bytes and a common rest. -/
theorem hdrTotal_of_one_byte {B B' : List Byte} {i : Nat} (hi : i < 10)
    (h : ∀ j, j ≠ i → byteAt B j = byteAt B' j) : ∃ rest,
      hdrTotal B = byteWeight i * (byteAt B i).toNat + rest ∧
      hdrTotal B' = byteWeight i * (byteAt B' i).toNat + rest := by
  have hmem : i ∈ Finset.range 10 := Finset.mem_range.2 hi
  refine ⟨∑ j ∈ (Finset.range 10).erase i, byteWeight j * (byteAt B j).toNat, ?_, ?_⟩
  · rw [hdrTotal_eq_sum_weights, ← Finset.add_sum_erase _ _ hmem]
  · rw [hdrTotal_eq_sum_weights, ← Finset.add_sum_erase _ _ hmem]
    congr 1
    exact Finset.sum_congr rfl fun j hj => by rw [h j (Finset.ne_of_mem_erase hj)]

/-- A byte changes the plain sum by less than 65535. -/
theorem hdrSum_ne_of_byte_lt {B B' : List Byte} {i : Nat} (hi : i < 10)
    (hlt : (byteAt B i).toNat < (byteAt B' i).toNat) (h : ∀ j, j ≠ i → byteAt B j = byteAt B' j) :
    hdrSum B ≠ hdrSum B' := by
  obtain ⟨rest, hT, hT'⟩ := hdrTotal_of_one_byte hi h
  have hb' := (byteAt B' i).isLt
  rw [Ne, hdrSum_eq_iff]
  rcases byteWeight_eq i with hw | hw <;> rw [hw] at hT hT' <;> exact carryFold_ne_of_lt (by omega) (by omega)

theorem hdrSum_ne_of_one_byte {B B' : List Byte} {i : Nat} (hi : i < 10) (hne : byteAt B i ≠ byteAt B' i)
    (h : ∀ j, j ≠ i → byteAt B j = byteAt B' j) : hdrSum B ≠ hdrSum B' := by
  rcases Nat.lt_or_gt_of_ne fun he => hne (BitVec.eq_of_toNat_eq he) with hlt | hgt
  · exact hdrSum_ne_of_byte_lt hi hlt h
  · exact (hdrSum_ne_of_byte_lt hi hgt fun j hj => (h j hj).symm).symm

theorem hdrSum_ne_of_differInOneByte {B B' : List Byte} (hB : B.length = 10) (h : DifferInOneByte B B') :
    hdrSum B ≠ hdrSum B' := by
  obtain ⟨-, i, hi, hne, hsame⟩ := h
  exact hdrSum_ne_of_one_byte (hB ▸ hi) hne hsame

/-- Settles O21: the first half for every byte, the second on the spec's two sequences. -/
theorem oneChangedByteChangesTheHeaderSum : Obligations.OneChangedByteChangesTheHeaderSum :=
  ⟨fun _ _ hB _ h => hdrSum_ne_of_differInOneByte hB h, by decide⟩

end Sys2Proof.Machine
end

section
/-! PROOFS. The header commands (41_header_codec.md R70 to R73): HCSM and HVFY on the five words of a Header, HENC and HDEC
byte by byte. -/

namespace Sys2Proof.Machine

/-! ## HCSM and HVFY -/

theorem u16be_seq_high (v : Word) :
    u16be (v.extractLsb' 24 8) (v.extractLsb' 16 8) = BitVec.ofNat 16 (v.toNat / 65536) := by
  have hv := v.isLt
  refine BitVec.eq_of_toNat_eq ?_
  rw [toNat_u16be, toNat_byte, toNat_byte, BitVec.toNat_ofNat]
  omega

theorem u16be_seq_low (v : Word) : u16be (v.extractLsb' 8 8) (v.extractLsb' 0 8) = BitVec.ofNat 16 v.toNat := by
  refine BitVec.eq_of_toNat_eq ?_
  rw [toNat_u16be, toNat_byte, toNat_byte, BitVec.toNat_ofNat]
  omega

theorem u16be_eq_ofNat (b0 b1 : Byte) : u16be b0 b1 = BitVec.ofNat 16 (b0.toNat * 256 + b1.toNat) := by
  rw [← toNat_u16be, BitVec.ofNat_toNat, BitVec.setWidth_eq]

theorem u32be_eq_ofNat (b0 b1 b2 b3 : Byte) : u32be b0 b1 b2 b3 =
    BitVec.ofNat 32 (b0.toNat * 2 ^ 24 + b1.toNat * 2 ^ 16 + b2.toNat * 2 ^ 8 + b3.toNat) := by
  rw [← toNat_u32be, BitVec.ofNat_toNat, BitVec.setWidth_eq]

/-- The five words of a Header (41_header_codec.md R67, R70). -/
theorem hdrWords_hdrBytes10 (h : Header) : hdrWords (hdrBytes10 h) =
    [BitVec.ofNat 16 (h.seq.toNat / 65536), BitVec.ofNat 16 h.seq.toNat, h.ackn, h.win,
      BitVec.ofNat 16 (h.flags.toNat * 256 + h.dlen.toNat)] := by
  rw [← u16be_seq_high, ← u16be_seq_low, ← u16be_eq_ofNat]
  conv_rhs => rw [← u16be_be16 h.ackn, ← u16be_be16 h.win]
  rfl

theorem State.headerSum_eq (s : State) : s.headerSum =
    ~~~ ([BitVec.ofNat 16 (s.seq.toNat / 65536), BitVec.ofNat 16 s.seq.toNat, s.ackn, s.win,
      BitVec.ofNat 16 (s.flags.toNat * 256 + s.dlen.toNat)].foldl ocAdd16 0) := by
  rw [State.headerSum, hdrSum_eq_foldl, hdrWords_hdrBytes10]
  rfl

/-- Settles O22: HCSM's action stores `headerSum`, whose five words are these. -/
theorem hcsmStoresTheComputedChecksum : Obligations.HcsmStoresTheComputedChecksum := by
  intro s hf
  rw [← State.headerSum_eq]
  dsimp only
  rw [BitVec.ofNat_toNat]
  exact exec_run rfl hf

theorem boolVal_beq {n : Nat} (x y : BitVec n) : boolVal (x == y) = if x = y then 1 else 0 := by
  by_cases h : x = y <;> simp [boolVal, h]

theorem exec_hvfy {s : State} (hf : s.fatal = false) :
    exec .hvfy s = .next (s.respond (if s.hcsum = s.headerSum then 1 else 0)) := by
  rw [exec_run rfl hf, actionOf, boolVal_beq]

/-- Settles O23. -/
theorem hvfyComparesStoredWithRecomputed : Obligations.HvfyComparesStoredWithRecomputed :=
  fun _ hf => exec_hvfy hf

theorem exec_hvfy_of_eq {s : State} (hf : s.fatal = false) (h : s.hcsum = s.headerSum) :
    exec .hvfy s = .next (s.respond 1) := by
  rw [exec_hvfy hf, if_pos h]

/-- HCSUM is no part of the bytes it is computed over (41_header_codec.md R65, R70). -/
theorem actionOf_hcsm_hcsum (s : State) : (actionOf .hcsm s).hcsum = (actionOf .hcsm s).headerSum := rfl

theorem State.mencWrites_hcsum (s : State) (plen : Half) :
    (s.mencWrites plen).hcsum = (s.mencWrites plen).headerSum := by
  rw [State.headerSum, s.mencWrites_header plen, ← s.mencHeader_hcsum plen, ← s.mencWrites_header plen, State.header_hcsum]

/-- Settles O24: both commands store the checksum of the Header they leave. -/
theorem computedHeaderVerifies : Obligations.ComputedHeaderVerifies := by
  intro s t i hf hi ht
  rcases hi with rfl | ⟨plen, hlen, rfl⟩
  · rw [exec_run rfl hf] at ht
    cases ht
    exact exec_hvfy_of_eq hf (actionOf_hcsm_hcsum s)
  · rw [exec_run rfl hf, actionOf_menc_of_le s plen hlen] at ht
    cases ht
    exact exec_hvfy_of_eq ((s.mencWrites_fatal plen).trans hf) (s.mencWrites_hcsum plen)

/-! ## HENC and HDEC -/

/-- The bytes of WBUF after HENC (41_header_codec.md R72). -/
theorem State.readByte_henc (s : State) (a : Nat) : (actionOf .henc s).readByte .wbuf a =
    if a < 12 then byteAt (hdrBytes s.header) a else s.readByte .wbuf a := by
  rw [actionOf, State.respond, State.answer_readByte, State.readByte_memWrite, length_hdrBytes, Nat.sub_zero]
  simp

theorem State.readByte_henc_of_lt (s : State) {a : Nat} (ha : a < 12) :
    (actionOf .henc s).readByte .wbuf a = byteAt (hdrBytes s.header) a := by
  rw [State.readByte_henc, if_pos ha]

/-- The most significant byte needs no reduction. -/
theorem toNat_byte_high (v : Word) : (v.extractLsb' 24 8).toNat = v.toNat / 2 ^ 24 := by
  have hv := v.isLt
  rw [toNat_byte]
  omega

theorem toNat_byte16_high (v : Half) : (v.extractLsb' 8 8).toNat = v.toNat / 2 ^ 8 := by
  have hv := v.isLt
  rw [toNat_byte16]
  omega

theorem toNat_byte_low (v : Word) : (v.extractLsb' 0 8).toNat = v.toNat % 256 := by
  rw [toNat_byte, Nat.pow_zero, Nat.div_one]

theorem toNat_byte16_low (v : Half) : (v.extractLsb' 0 8).toNat = v.toNat % 256 := by
  rw [toNat_byte16, Nat.pow_zero, Nat.div_one]

/-- Settles O25: the written bytes are those of `hdrBytes`, in table order and big-endian (30_encoding.md R40). -/
theorem hencPacksTheRegistersBigEndian : Obligations.HencPacksTheRegistersBigEndian := by
  intro s hf
  refine ⟨actionOf .henc s, exec_run rfl hf, rfl, ?_, ?_, ?_, ?_, ?_, ?_, ?_, ?_, ?_, ?_, ?_, ?_, fun a ha => ?_⟩
  case refine_13 => rw [State.readByte_henc, if_neg (by omega)]
  all_goals rw [State.readByte_henc_of_lt s (by decide)]
  · exact toNat_byte_high s.seq
  · exact toNat_byte s.seq 16
  · exact toNat_byte s.seq 8
  · exact toNat_byte_low s.seq
  · exact toNat_byte16_high s.ackn
  · exact toNat_byte16_low s.ackn
  · exact toNat_byte16_high s.win
  · exact toNat_byte16_low s.win
  · rfl
  · rfl
  · exact toNat_byte16_high s.hcsum
  · exact toNat_byte16_low s.hcsum

/-- The Header value of WBUF[0..11] (41_header_codec.md R69). -/
theorem State.hdrFields_memRead (s : State) : hdrFields (s.memRead .wbuf 0 12) =
    { seq := u32be (s.readByte .wbuf 0) (s.readByte .wbuf 1) (s.readByte .wbuf 2) (s.readByte .wbuf 3)
      ackn := u16be (s.readByte .wbuf 4) (s.readByte .wbuf 5)
      win := u16be (s.readByte .wbuf 6) (s.readByte .wbuf 7)
      flags := s.readByte .wbuf 8
      dlen := s.readByte .wbuf 9
      hcsum := u16be (s.readByte .wbuf 10) (s.readByte .wbuf 11) } := by
  have hbyte : ∀ i < 12, byteAt (s.memRead .wbuf 0 12) i = s.readByte .wbuf i := fun i hi => by
    rw [s.byteAt_memRead .wbuf 0 12 i hi, Nat.zero_add]
  simp [hdrFields, hbyte]

/-- Settles O26: HDEC's action takes the Header value of WBUF[0..11] and checks nothing. -/
theorem hdecUnpacksWithoutValidation : Obligations.HdecUnpacksWithoutValidation := by
  intro s hf
  dsimp only
  rw [exec_run rfl hf, actionOf, s.hdrFields_memRead, ← u32be_eq_ofNat, ← u16be_eq_ofNat, ← u16be_eq_ofNat,
    ← u16be_eq_ofNat]
  rfl

end Sys2Proof.Machine
end

section
/-! PROOFS. The flag commands (42_flags.md R81 to R83): FSET bit by bit, FGET and NOFLG on the number in FLAGS. -/

namespace Sys2Proof.Machine

/-- Settles O28: `setFlag` writes the bit of the flag's number (42_flags.md R80). -/
theorem fsetWritesOneBitOfFlags : Obligations.FsetWritesOneBitOfFlags := by
  intro s f v hf
  refine ⟨setFlag s.flags f v, exec_run rfl hf, fun k => ?_⟩
  rw [getLsbD_setFlag]
  cases f <;> exact if_congr eq_comm rfl rfl

/-- One bit of a byte as a number. -/
theorem boolVal_getLsbD (x : Byte) (k : Nat) : boolVal (x.getLsbD k) = BitVec.ofNat 32 (x.toNat / 2 ^ k % 2) := by
  have hbit : x.getLsbD k = decide (x.toNat / 2 ^ k % 2 = 1) := by
    rw [BitVec.getLsbD, Nat.testBit_eq_decide_div_mod_eq]
  rw [hbit]
  rcases Nat.mod_two_eq_zero_or_one (x.toNat / 2 ^ k) with h | h <;> rw [h] <;> rfl

/-- Settles O29. -/
theorem fgetAnswersOneBitOfFlags : Obligations.FgetAnswersOneBitOfFlags := by
  intro s f hf
  rw [exec_fget hf, getFlag, boolVal_getLsbD]
  cases f <;> rfl

theorem boolVal_noFlags (x : Byte) : boolVal (noFlags x) = if x.toNat = 0 then 1 else 0 := by
  rw [noFlags, boolVal_beq]
  exact if_congr BitVec.toNat_inj.symm rfl rfl

/-- Settles O30. -/
theorem noflgTestsTheWholeFlagsByte : Obligations.NoflgTestsTheWholeFlagsByte := by
  intro s hf
  rw [exec_noflg hf, boolVal_noFlags]
  rfl

end Sys2Proof.Machine
end

section
/-! PROOFS. CRC-32 (43_message_codec.md R87 to R89): the register is linear and injective in what it starts from, and up
to four bytes enter it like one little-endian word, so a burst of four bytes is always seen. -/

namespace Sys2Proof.Machine

/-! ## Linearity -/

theorem crcByte_xor (c d : Word) (x y : Byte) : crcByte (c ^^^ d) (x ^^^ y) = crcByte c x ^^^ crcByte d y := by
  have hparts : c ^^^ d ^^^ (x ^^^ y).setWidth 32 = (c ^^^ x.setWidth 32) ^^^ (d ^^^ y.setWidth 32) := by
    rw [BitVec.setWidth_xor]
    ac_rfl
  rw [crcByte, crcByte, crcByte, hparts, crcShifts_xor]

theorem crcFrom_zipWith_xor {A B : List Byte} (hlen : A.length = B.length) (c d : Word) :
    crcFrom (c ^^^ d) (List.zipWith (· ^^^ ·) A B) = crcFrom c A ^^^ crcFrom d B := by
  induction A generalizing B c d with
  | nil =>
    obtain rfl := List.eq_nil_of_length_eq_zero hlen.symm
    rfl
  | cons x A ih =>
    cases B with
    | nil => cases hlen
    | cons y B =>
      rw [List.zipWith_cons_cons, crcFrom_cons, crcFrom_cons, crcFrom_cons, crcByte_xor, ih (Nat.succ.inj hlen)]

/-- The initial and final complements cancel. -/
theorem crc32_xor {A B : List Byte} (hlen : A.length = B.length) :
    crc32 A ^^^ crc32 B = crcFrom 0 (List.zipWith (· ^^^ ·) A B) := by
  have hcancel : ∀ a b m : Word, a ^^^ m ^^^ (b ^^^ m) = a ^^^ b := fun a b m => by
    have hassoc : a ^^^ m ^^^ (b ^^^ m) = a ^^^ b ^^^ (m ^^^ m) := by ac_rfl
    rw [hassoc, BitVec.xor_self, BitVec.xor_zero]
  rw [crc32, crc32, hcancel, ← crcFrom_zipWith_xor hlen, BitVec.xor_self]
  rfl

/-- Settles O39: the difference is the register run from 0 over the bytewise difference. -/
theorem crcDifferenceDependsOnTheByteDifference : Obligations.CrcDifferenceDependsOnTheByteDifference := by
  intro A B A' B' hlen hlen' hdiff
  rw [crc32_xor hlen, crc32_xor hlen', hdiff]

/-! ## Injectivity -/

theorem crcShifts_inj {n : Nat} {c d : Word} (h : crcShifts n c = crcShifts n d) : c = d := by
  refine BitVec.xor_eq_zero_iff.1 (crcShifts_eq_zero (n := n) ?_)
  rw [crcShifts_xor, h, BitVec.xor_self]
  rfl

theorem crcFrom_inj {B : List Byte} {c d : Word} (h : crcFrom c B = crcFrom d B) : c = d := by
  induction B generalizing c d with
  | nil => exact h
  | cons x B ih =>
    rw [crcFrom_cons, crcFrom_cons] at h
    exact (BitVec.xor_left_inj _).1 (crcShifts_inj (ih h))

/-! ## Up to four bytes as one word -/

/-- The little-endian word of a byte sequence. -/
def leWord (X : List Byte) : Word := BitVec.ofNat 32 (Nat.ofDigits 256 (X.map BitVec.toNat))

theorem digit_lt {X : List Byte} {d : Nat} (hd : d ∈ X.map BitVec.toNat) : d < 256 := by
  obtain ⟨x, -, rfl⟩ := List.mem_map.1 hd
  exact x.isLt

theorem ofDigits_lt (X : List Byte) : Nat.ofDigits 256 (X.map BitVec.toNat) < 256 ^ X.length := by
  have hlt := Nat.ofDigits_lt_base_pow_length (b := 256) (l := X.map BitVec.toNat) (by decide) fun _ => digit_lt
  rwa [List.length_map] at hlt

theorem toNat_leWord {X : List Byte} (h : X.length ≤ 4) :
    (leWord X).toNat = Nat.ofDigits 256 (X.map BitVec.toNat) := by
  have hlt := ofDigits_lt X
  have hpow : 256 ^ X.length ≤ 256 ^ 4 := Nat.pow_le_pow_right (by decide) h
  rw [leWord, BitVec.toNat_ofNat]
  omega

theorem leWord_inj {X Y : List Byte} (hlen : X.length = Y.length) (h4 : X.length ≤ 4) (h : leWord X = leWord Y) :
    X = Y := by
  have hnat := congrArg BitVec.toNat h
  rw [toNat_leWord h4, toNat_leWord (hlen ▸ h4)] at hnat
  have hmap := Nat.ofDigits_inj_of_len_eq (by decide) (by rw [List.length_map, List.length_map, hlen])
    (fun _ => digit_lt) (fun _ => digit_lt) hnat
  exact List.map_injective_iff.2 (fun _ _ => BitVec.eq_of_toNat_eq) hmap

theorem leWord_cons (x : Byte) (X : List Byte) : leWord (x :: X) = x.setWidth 32 ^^^ (leWord X <<< 8) := by
  refine BitVec.eq_of_getLsbD_eq fun k hk => ?_
  have hbit := Nat.testBit_two_pow_mul_add (Nat.ofDigits 256 (X.map BitVec.toNat)) x.isLt k
  rw [leWord, leWord, List.map_cons, Nat.ofDigits_cons, Nat.add_comm, BitVec.getLsbD_xor, BitVec.getLsbD_shiftLeft,
    BitVec.getLsbD_setWidth, BitVec.getLsbD_ofNat, BitVec.getLsbD_ofNat]
  refine (congrArg (decide (k < 32) && ·) hbit).trans ?_
  by_cases hk8 : k < 8
  · simp [hk, hk8, BitVec.getLsbD]
  · simp [hk, hk8, BitVec.getLsbD_of_ge x k (by omega), show k - 8 < 32 by omega]

theorem crcShift_shiftLeft_succ {n : Nat} {v : Word} (h : v.toNat * 2 ^ (n + 1) < 2 ^ 32) :
    crcShift (v <<< (n + 1)) = v <<< n := by
  have hlow : (v <<< (n + 1)).getLsbD 0 = false := by
    rw [BitVec.getLsbD_shiftLeft]
    simp
  rw [crcShift, hlow, if_neg Bool.false_ne_true]
  refine BitVec.eq_of_toNat_eq ?_
  rw [Nat.pow_succ, ← Nat.mul_assoc] at h
  rw [BitVec.toNat_ushiftRight, BitVec.toNat_shiftLeft, BitVec.toNat_shiftLeft, Nat.shiftLeft_eq, Nat.shiftLeft_eq,
    Nat.shiftRight_eq_div_pow, Nat.pow_succ, ← Nat.mul_assoc]
  omega

/-- A word that fits above the bits shifted out comes back unchanged. -/
theorem crcShifts_shiftLeft {n : Nat} {v : Word} (h : v.toNat * 2 ^ n < 2 ^ 32) : crcShifts n (v <<< n) = v := by
  induction n with
  | zero => exact BitVec.shiftLeft_zero v
  | succ n ih =>
    rw [crcShifts, crcShift_shiftLeft_succ h]
    rw [Nat.pow_succ, ← Nat.mul_assoc] at h
    exact ih (by omega)

/-- Up to four bytes enter the register as one word before the shifts. -/
theorem crcFrom_eq_crcShifts {X : List Byte} (h : X.length ≤ 4) (c : Word) :
    crcFrom c X = crcShifts (8 * X.length) (c ^^^ leWord X) := by
  induction X generalizing c with
  | nil => exact (BitVec.xor_zero).symm
  | cons x X ih =>
    have h3 : X.length ≤ 3 := Nat.le_of_succ_le_succ h
    have hfits : (leWord X).toNat * 2 ^ 8 < 2 ^ 32 := by
      have hlt := ofDigits_lt X
      have hpow : 256 ^ X.length ≤ 256 ^ 3 := Nat.pow_le_pow_right (by decide) h3
      rw [toNat_leWord (by omega)]
      omega
    have hword : crcByte c x ^^^ leWord X = crcShifts 8 (c ^^^ leWord (x :: X)) := by
      rw [leWord_cons, ← BitVec.xor_assoc, crcShifts_xor, crcShifts_shiftLeft hfits, crcByte]
    rw [crcFrom_cons, ih (by omega), hword, ← crcShifts_add, List.length_cons, Nat.mul_add, Nat.mul_one, Nat.add_comm]

/-- What comes before the burst gives both the same register, the burst two different ones, and what comes after keeps
them different. -/
theorem crc32_ne_of_burst (A B : List Byte) {X Y : List Byte} (hlen : X.length = Y.length) (h4 : X.length ≤ 4)
    (hne : X ≠ Y) : crc32 (A ++ X ++ B) ≠ crc32 (A ++ Y ++ B) := by
  intro heq
  have hregister : crcFrom 0xFFFFFFFF (A ++ X ++ B) = crcFrom 0xFFFFFFFF (A ++ Y ++ B) := (BitVec.xor_left_inj _).1 heq
  rw [crcFrom_append, crcFrom_append _ (A ++ Y), crcFrom_append, crcFrom_append _ A Y] at hregister
  have hburst := crcFrom_inj hregister
  rw [crcFrom_eq_crcShifts h4, crcFrom_eq_crcShifts (X := Y) (by omega), hlen] at hburst
  exact hne (leWord_inj hlen h4 ((BitVec.xor_right_inj _).1 (crcShifts_inj hburst)))

/-- Settles O38. -/
theorem crcDetectsEveryFourByteBurst : Obligations.CrcDetectsEveryFourByteBurst :=
  fun A _ _ B hlen h4 hne => crc32_ne_of_burst A B hlen h4 hne

/-! ## One changed byte -/

theorem byteAt_of_length_le {B : List Byte} {i : Nat} (h : B.length ≤ i) : byteAt B i = 0 := by
  rw [byteAt, List.getD_eq_getElem?_getD, List.getElem?_eq_none h, Option.getD_none]

theorem byteAt_set_same {B : List Byte} {i : Nat} (h : i < B.length) (x : Byte) : byteAt (B.set i x) i = x := by
  simp [byteAt, List.getD_eq_getElem?_getD, h]

theorem byteAt_set_of_ne {i j : Nat} (h : j ≠ i) (B : List Byte) (x : Byte) : byteAt (B.set i x) j = byteAt B j := by
  simp [byteAt, List.getD_eq_getElem?_getD, List.getElem?_set_ne h.symm]

/-- Sequences that differ in one byte have a common part before it and a common part after it. -/
theorem DifferInOneByte.exists_split {A B : List Byte} (h : DifferInOneByte A B) :
    ∃ C D x y, x ≠ y ∧ A = C ++ [x] ++ D ∧ B = C ++ [y] ++ D := by
  obtain ⟨hlen, i, hi, hne, hsame⟩ := h
  have hsplit : ∀ L : List Byte, L.length = A.length → (∀ j, j ≠ i → byteAt L j = byteAt A j) →
      L = A.take i ++ [byteAt L i] ++ A.drop (i + 1) := fun L hL hLA => by
    rw [List.append_assoc, List.singleton_append, ← (List.set_eq_take_append_cons_drop.trans (if_pos hi))]
    refine eq_of_byteAt (by rw [List.length_set, hL]) fun j hj => ?_
    by_cases hji : j = i
    · rw [hji, byteAt_set_same hi]
    · rw [byteAt_set_of_ne hji, hLA j hji]
  exact ⟨A.take i, A.drop (i + 1), byteAt A i, byteAt B i, hne, hsplit A rfl fun _ _ => rfl,
    hsplit B hlen.symm fun j hj => (hsame j hj).symm⟩

theorem crc32_ne_of_differInOneByte {A B : List Byte} (h : DifferInOneByte A B) : crc32 A ≠ crc32 B := by
  obtain ⟨C, D, x, y, hne, rfl, rfl⟩ := h.exists_split
  exact crc32_ne_of_burst C D rfl (by simp) fun h => hne (List.head_eq_of_cons_eq h)

/-- The bytes of the zero-field image: header, four zeros, payload (43_message_codec.md R87). -/
theorem byteAt_msgIn {H P : List Byte} (hH : H.length = 12) (j : Nat) : byteAt (msgIn H P) j =
    if j < 12 then byteAt (H ++ P) j else if j < 16 then 0 else byteAt (H ++ P) (j - 4) := by
  rw [msgIn, List.append_assoc]
  split_ifs with h12 h16
  · rw [byteAt_append_left (by omega), byteAt_append_left (by omega)]
  · rw [byteAt_append_right (by omega), byteAt_append_left (by rw [length_zeros, hH, mckLen_eq]; omega), byteAt_zeros]
  · rw [byteAt_append_right (by omega), byteAt_append_right (by rw [length_zeros, hH, mckLen_eq]; omega),
      byteAt_append_right (by omega), length_zeros, mckLen_eq, Nat.sub_right_comm]

theorem length_msgIn (H P : List Byte) : (msgIn H P).length = H.length + P.length + 4 := by
  rw [msgIn, List.length_append, List.length_append, length_zeros, mckLen_eq, Nat.add_right_comm]

/-- Where byte `i` of header and payload stands in the zero-field image. -/
def imageIndex (i : Nat) : Nat := if i < 12 then i else i + 4

theorem byteAt_msgIn_imageIndex {H P : List Byte} (hH : H.length = 12) (i : Nat) :
    byteAt (msgIn H P) (imageIndex i) = byteAt (H ++ P) i := by
  rw [byteAt_msgIn hH, imageIndex]
  by_cases h12 : i < 12
  · rw [if_pos h12, if_pos h12]
  · rw [if_neg h12, if_neg (by omega), if_neg (by omega), Nat.add_sub_cancel]

theorem differInOneByte_msgIn {H H' P P' : List Byte} (hH : H.length = 12) (hH' : H'.length = 12)
    (h : DifferInOneByte (H ++ P) (H' ++ P')) : DifferInOneByte (msgIn H P) (msgIn H' P') := by
  obtain ⟨hlen, i, hi, hne, hsame⟩ := h
  rw [List.length_append] at hi
  rw [List.length_append, List.length_append] at hlen
  refine ⟨by rw [length_msgIn, length_msgIn, hlen], imageIndex i, ?_, ?_, fun j hj => ?_⟩
  · rw [length_msgIn, imageIndex]
    split <;> omega
  · rw [byteAt_msgIn_imageIndex hH, byteAt_msgIn_imageIndex hH']
    exact hne
  · rw [byteAt_msgIn hH, byteAt_msgIn hH']
    rw [imageIndex] at hj
    by_cases h12 : j < 12
    · rw [if_pos h12, if_pos h12, hsame j (by split at hj <;> omega)]
    · by_cases h16 : j < 16
      · rw [if_neg h12, if_neg h12, if_pos h16, if_pos h16]
      · rw [if_neg h12, if_neg h12, if_neg h16, if_neg h16, hsame (j - 4) (by split at hj <;> omega)]

/-- Settles O40: one changed byte is a burst of length 1. -/
theorem defaultMsgSumIsByteSensitive : Obligations.DefaultMsgSumIsByteSensitive := by
  intro H H' P P' hH hH' _ _ hdiff
  exact crc32_ne_of_differInOneByte (differInOneByte_msgIn hH hH' hdiff)

end Sys2Proof.Machine
end

section
/-! PROOFS. The message codec (43_message_codec.md R90, R91, R94; 60_exceptions.md R101 to R103): the frame MENC writes byte
by byte, what MDEC loads and when it refuses, and that it sees every changed byte of a frame. -/

namespace Sys2Proof.Machine

/-! ## MENC -/

theorem Memory.byte?_store_isSome {m : Memory} {a x : Nat} {bs : List Byte} (h : a ≤ x ∧ x < a + bs.length) :
    (Memory.byte? (m.store a bs) x).isSome = true := by
  have hx : x - a < bs.length := by omega
  rw [Memory.byte?_store, if_pos h, List.getElem?_eq_getElem hx, Option.isSome_some]

theorem State.written_memWrite (s : State) (sp : Space) (a : Nat) (bs : List Byte) :
    Written (s.memWrite sp a bs) sp a bs.length := by
  intro i hi
  have hbuf : (s.memWrite sp a bs).buffer sp = (s.buffer sp).store a bs := by cases sp <;> rfl
  rw [hbuf]
  exact Memory.byte?_store_isSome ⟨by omega, by omega⟩

section
variable (s : State) {plen : Half}

theorem State.mencWrites_memRead_sum (plen : Half) : (s.mencWrites plen).memRead .wbuf 12 4 = be32 (s.mencSum plen) := by
  rw [State.mencWrites_eq, State.mencFrame]
  exact State.memRead_memWrite_middle _ .wbuf 0 (hdrBytes (s.mencHeader plen)) (be32 (s.mencSum plen)) _

theorem State.mencWrites_written (h : plen.toNat ≤ 255) : Written (s.mencWrites plen) .wbuf 0 1016 := by
  rw [State.mencWrites_eq, ← s.length_mencFrame h (s.mencSum plen)]
  exact State.written_memWrite _ .wbuf 0 _

/-- PBUF[0..plen-1] and the zero padding, in WBUF[16..1015]. -/
theorem State.mencWrites_readByte_payload (h : plen.toNat ≤ 255) {k : Nat} (hk : k < 1000) :
    (s.mencWrites plen).readByte .wbuf (16 + k) = if k < plen.toNat then s.readByte .pbuf k else 0 := by
  rw [← s.byteAt_mencPayload plen k, ← s.mencWrites_wirePayload plen h]
  exact (State.byteAt_memRead _ .wbuf 16 1000 k hk).symm

theorem State.mencWrites_readByte_above (h : plen.toNat ≤ 255) {a : Nat} (ha : 1016 ≤ a) :
    (s.mencWrites plen).readByte .wbuf a = s.readByte .wbuf a := by
  rw [State.mencWrites_eq, State.readByte_memWrite, s.length_mencFrame h, if_neg (by omega)]
  rfl

end

/-- Settles O32: the frame's three regions, one after the other. -/
theorem mencWritesTheFrame : Obligations.MencWritesTheFrame := by
  intro s plen hf hlen
  have hheader := s.mencWrites_header plen
  refine ⟨(s.mencWrites plen).respond 0, ?_, ?_, ?_, s.mencWrites_hcsum plen, ?_, ?_, ?_, fun k hk => ?_,
    fun k hk hk1000 => ?_, s.mencWrites_written hlen, fun a ha => s.mencWrites_readByte_above hlen ha⟩
  · rw [exec_run rfl hf, actionOf_menc_of_le s plen hlen]
  · rw [State.mencWrites_eq]
    rfl
  · exact (congrArg (fun h => h.dlen.toNat) hheader).trans (s.toNat_mencHeader_dlen hlen)
  · show (s.mencWrites plen).mcsum = msgSumOf s.msgSum (msgIn (hdrBytes (s.mencWrites plen).header) _)
    rw [State.mencWrites_mcsum, hheader]
    rfl
  · show (s.mencWrites plen).wireHeader = hdrBytes (s.mencWrites plen).header
    rw [State.mencWrites_wireHeader, hheader]
  · show (s.mencWrites plen).memRead .wbuf 12 4 = be32 (s.mencWrites plen).mcsum
    rw [State.mencWrites_memRead_sum, State.mencWrites_mcsum]
  · exact (s.mencWrites_readByte_payload hlen (by omega)).trans (if_pos hk)
  · exact (s.mencWrites_readByte_payload hlen hk1000).trans (if_neg (by omega))

/-- Settles O33. -/
theorem mencRefusesLongPayloads : Obligations.MencRefusesLongPayloads := by
  intro s plen hf hlen
  refine ⟨s.raise .payloadTooLarge, ?_, rfl, ?_, ?_⟩
  · rw [exec_run rfl hf, actionOf, if_pos hlen]
  · rw [State.cause_raise]
    decide
  · rw [State.fatal_raise]
    exact Bool.or_true _

/-! ## MDEC -/

theorem State.be32_wireSum (s : State) : be32 s.wireSum = s.memRead .wbuf 12 4 := by
  rw [State.wireSum, be32_u32be, State.memRead_eq]
  rfl

theorem State.mdecWrites_readByte_pbuf (s : State) (k : Nat) : s.mdecWrites.readByte .pbuf k =
    if k < 1000 then s.readByte .wbuf (16 + k) else s.readByte .pbuf k := by
  have hlen : s.wirePayload.length = 1000 := s.length_memRead .wbuf 16 1000
  rw [State.mdecWrites, State.readByte_memWrite, hlen]
  by_cases hk : k < 1000
  · rw [if_pos ⟨Nat.zero_le k, by omega⟩, if_pos hk, Nat.sub_zero]
    exact s.byteAt_memRead .wbuf 16 1000 k hk
  · rw [if_neg (by omega), if_neg hk]
    rfl

/-- Settles O34: MDEC's writes are the Header value, the checksum and the payload region of WBUF. -/
theorem mdecLoadsAValidFrame : Obligations.MdecLoadsAValidFrame := by
  intro s hf hheader hmessage
  refine ⟨s.mdecWrites.respond 0, ?_, rfl, ?_, s.be32_wireSum, fun k hk => ?_, fun a ha => ?_⟩
  · rw [exec_run rfl hf, actionOf_mdec_of_checks (s.headerCheck_iff.2 hheader) (s.messageCheck_iff.2 hmessage)]
  · exact hdrBytes_hdrFields (s.length_memRead .wbuf 0 12)
  · exact (s.mdecWrites_readByte_pbuf k).trans (if_pos hk)
  · exact (s.mdecWrites_readByte_pbuf a).trans (if_neg (by omega))

theorem actionOf_mdec_of_not_header {s : State} (h : ¬ WireHeaderValid s) :
    actionOf .mdec s = s.raise .headerChecksumMismatch := by
  rw [← State.headerCheck_iff, Bool.not_eq_true] at h
  rw [actionOf, if_pos h]

theorem actionOf_mdec_of_not_message {s : State} (hheader : WireHeaderValid s) (h : ¬ WireMessageValid s) :
    actionOf .mdec s = s.raise .messageChecksumMismatch := by
  rw [← State.headerCheck_iff] at hheader
  rw [← State.messageCheck_iff, Bool.not_eq_true] at h
  rw [actionOf, hheader, if_neg Bool.noConfusion, if_pos h]

theorem State.raise_fatal_of_not_isFatal {s : State} (hf : s.fatal = false) {k : ErrorKind} (hk : k.isFatal = false) :
    (s.raise k).fatal = false := by
  rw [State.fatal_raise, hf, hk, Bool.or_false]

/-- Settles O35: the header check decides first, and neither error is fatal. -/
theorem mdecRejectsBadFrames : Obligations.MdecRejectsBadFrames := by
  intro s hf hbad
  by_cases hheader : WireHeaderValid s
  · refine ⟨_, .messageChecksumMismatch, ?_, rfl, State.raise_fatal_of_not_isFatal hf rfl, fun h => absurd hheader h,
      fun _ => ⟨rfl, s.cause_raise .messageChecksumMismatch⟩⟩
    rw [exec_run rfl hf, actionOf_mdec_of_not_message hheader fun h => hbad ⟨hheader, h⟩]
  · refine ⟨_, .headerChecksumMismatch, ?_, rfl, State.raise_fatal_of_not_isFatal hf rfl,
      fun _ => ⟨rfl, s.cause_raise .headerChecksumMismatch⟩, fun h => absurd h hheader⟩
    rw [exec_run rfl hf, actionOf_mdec_of_not_header hheader]

/-! ## One changed byte of a frame -/

theorem u16be_inj {b0 b1 c0 c1 : Byte} : u16be b0 b1 = u16be c0 c1 ↔ b0 = c0 ∧ b1 = c1 := by
  refine ⟨fun h => ?_, fun ⟨h0, h1⟩ => by rw [h0, h1]⟩
  simpa only [be16_u16be, List.cons.injEq, and_true] using congrArg be16 h

theorem u32be_inj {b0 b1 b2 b3 c0 c1 c2 c3 : Byte} :
    u32be b0 b1 b2 b3 = u32be c0 c1 c2 c3 ↔ b0 = c0 ∧ b1 = c1 ∧ b2 = c2 ∧ b3 = c3 := by
  refine ⟨fun h => ?_, fun ⟨h0, h1, h2, h3⟩ => by rw [h0, h1, h2, h3]⟩
  simpa only [be32_u32be, List.cons.injEq, and_true] using congrArg be32 h

theorem DifferInOneByte.append_left {P P' : List Byte} (H : List Byte) (h : DifferInOneByte P P') :
    DifferInOneByte (H ++ P) (H ++ P') := by
  obtain ⟨hlen, i, hi, hne, hsame⟩ := h
  refine ⟨by rw [List.length_append, List.length_append, hlen], H.length + i, ?_, ?_, fun j hj => ?_⟩
  · rw [List.length_append]
    omega
  · rw [byteAt_append_right (by omega), byteAt_append_right (by omega), Nat.add_sub_cancel_left]
    exact hne
  · by_cases hjH : j < H.length
    · rw [byteAt_append_left hjH, byteAt_append_left hjH]
    · rw [byteAt_append_right (by omega), byteAt_append_right (by omega), hsame (j - H.length) (by omega)]

section
variable {t : State} {a : Nat} {x : Byte}

theorem State.readByte_write_of_ne {sp : Space} {b : Nat} (h : b ≠ a) :
    (t.memWrite sp a [x]).readByte sp b = t.readByte sp b :=
  t.readByte_memWrite_singleton_of_ne x fun hb => h hb.2

theorem State.memRead_write_outside {sp : Space} {b n : Nat} (h : a < b ∨ b + n ≤ a) :
    (t.memWrite sp a [x]).memRead sp b n = t.memRead sp b n :=
  State.memRead_congr fun i hi => State.readByte_write_of_ne (by omega)

theorem State.memRead_write_inside {sp : Space} {b n : Nat} (hx : x ≠ t.readByte sp a) (hb : b ≤ a) (ha : a < b + n) :
    DifferInOneByte ((t.memWrite sp a [x]).memRead sp b n) (t.memRead sp b n) := by
  refine ⟨by rw [State.length_memRead, State.length_memRead], a - b, by rw [State.length_memRead]; omega, ?_,
    fun j hj => ?_⟩
  · rw [State.byteAt_memRead _ _ _ _ _ (by omega), State.byteAt_memRead _ _ _ _ _ (by omega), Nat.add_sub_of_le hb,
      State.readByte_memWrite_singleton]
    exact hx
  · by_cases hjn : j < n
    · rw [State.byteAt_memRead _ _ _ _ _ hjn, State.byteAt_memRead _ _ _ _ _ hjn,
        State.readByte_write_of_ne (by omega)]
    · rw [byteAt_of_length_le (by rw [State.length_memRead]; omega),
        byteAt_of_length_le (by rw [State.length_memRead]; omega)]

/-- A changed byte of WBUF[0..9] changes the recomputed header checksum, one of WBUF[10..11] the stored one. -/
theorem WireHeaderValid.not_of_write (h : WireHeaderValid t) (ha : a < 12) (hx : x ≠ t.readByte .wbuf a) :
    ¬ WireHeaderValid (t.memWrite .wbuf a [x]) := by
  intro hnew
  rw [WireHeaderValid] at h hnew
  by_cases ha10 : a < 10
  · rw [State.readByte_write_of_ne (by omega), State.readByte_write_of_ne (by omega), h] at hnew
    exact hdrSum_ne_of_differInOneByte (State.length_memRead _ _ _ _)
      (State.memRead_write_inside hx (Nat.zero_le a) (by omega)) hnew.symm
  · rw [State.memRead_write_outside (by omega), ← h, u16be_inj] at hnew
    obtain ⟨h10, h11⟩ := hnew
    rcases (by omega : a = 10 ∨ a = 11) with rfl | rfl
    · exact hx (by rw [← h10, State.readByte_memWrite_singleton])
    · exact hx (by rw [← h11, State.readByte_memWrite_singleton])

theorem WireHeaderValid.write (h : WireHeaderValid t) (ha : 12 ≤ a) : WireHeaderValid (t.memWrite .wbuf a [x]) := by
  rw [WireHeaderValid, State.readByte_write_of_ne (by omega), State.readByte_write_of_ne (by omega),
    State.memRead_write_outside (by omega)]
  exact h

/-- A changed byte of WBUF[12..15] changes the stored message checksum. -/
theorem WireMessageValid.not_of_write_sum (h : WireMessageValid t) (ha : 12 ≤ a) (ha16 : a < 16)
    (hx : x ≠ t.readByte .wbuf a) : ¬ WireMessageValid (t.memWrite .wbuf a [x]) := by
  intro hnew
  rw [WireMessageValid] at h hnew
  rw [State.memRead_write_outside (by omega), State.memRead_write_outside (by omega), State.memWrite_msgSum, ← h,
    u32be_inj] at hnew
  obtain ⟨h12, h13, h14, h15⟩ := hnew
  rcases (by omega : a = 12 ∨ a = 13 ∨ a = 14 ∨ a = 15) with rfl | rfl | rfl | rfl
  · exact hx (by rw [← h12, State.readByte_memWrite_singleton])
  · exact hx (by rw [← h13, State.readByte_memWrite_singleton])
  · exact hx (by rw [← h14, State.readByte_memWrite_singleton])
  · exact hx (by rw [← h15, State.readByte_memWrite_singleton])

/-- A changed byte of WBUF[16..1015] changes the recomputed message checksum when `MsgSum` tells single bytes apart. -/
theorem WireMessageValid.not_of_write_payload (h : WireMessageValid t) (ha : 16 ≤ a) (ha1016 : a < 1016)
    (hx : x ≠ t.readByte .wbuf a) (hsens : MsgSumByteSensitive (msgSumOf t.msgSum)) :
    ¬ WireMessageValid (t.memWrite .wbuf a [x]) := by
  intro hnew
  rw [WireMessageValid] at h hnew
  rw [State.readByte_write_of_ne (by omega), State.readByte_write_of_ne (by omega), State.readByte_write_of_ne (by omega),
    State.readByte_write_of_ne (by omega), h, State.memRead_write_outside (by omega), State.memWrite_msgSum] at hnew
  have hlen : ∀ (u : State) (b n : Nat), (u.memRead .wbuf b n).length = n := fun u => u.length_memRead .wbuf
  exact hsens _ _ _ _ (hlen t 0 12) (hlen t 0 12) (hlen _ 16 1000) (hlen t 16 1000)
    ((State.memRead_write_inside hx ha (by omega)).append_left _) hnew.symm

end

/-- The response of MDEC to a frame that fails a check. -/
theorem actionOf_mdec_response (s : State) : ∃ r, (actionOf .mdec s).responses = s.responses ++ [r] ∧
    (¬ WireHeaderValid s → r = ⟨.headerChecksumMismatch, 0⟩) ∧
    (WireHeaderValid s → ¬ WireMessageValid s → r = ⟨.messageChecksumMismatch, 0⟩) := by
  by_cases hheader : WireHeaderValid s
  · by_cases hmessage : WireMessageValid s
    · refine ⟨⟨.ok, 0⟩, ?_, fun h => absurd hheader h, fun _ h => absurd hmessage h⟩
      rw [actionOf_mdec_of_checks (s.headerCheck_iff.2 hheader) (s.messageCheck_iff.2 hmessage)]
      rfl
    · exact ⟨_, by rw [actionOf_mdec_of_not_message hheader hmessage]; rfl, fun h => absurd hheader h, fun _ _ => rfl⟩
  · exact ⟨_, by rw [actionOf_mdec_of_not_header hheader]; rfl, fun _ => rfl, fun h => absurd h hheader⟩

/-- Settles O37: MENC leaves a frame that passes both checks, and a changed byte breaks the check that covers it. -/
theorem anyChangedByteOfAFrameIsDetected : Obligations.AnyChangedByteOfAFrameIsDetected := by
  intro s t plen a x hf hlen ht ha hx
  rw [exec_run rfl hf, actionOf_menc_of_le s plen hlen] at ht
  cases ht
  have hheader : WireHeaderValid ((s.mencWrites plen).respond 0) :=
    (State.headerCheck_iff _).1 (s.mencWrites_headerCheck plen)
  have hmessage : WireMessageValid ((s.mencWrites plen).respond 0) :=
    (State.messageCheck_iff _).1 (s.mencWrites_messageCheck plen hlen)
  have hfatal : (((s.mencWrites plen).respond 0).memWrite .wbuf a [x]).fatal = false :=
    (s.mencWrites_fatal plen).trans hf
  obtain ⟨r, hr, hbadHeader, hbadMessage⟩ :=
    actionOf_mdec_response (((s.mencWrites plen).respond 0).memWrite .wbuf a [x])
  refine ⟨_, r, exec_run rfl hfatal, hr, fun ha12 => hbadHeader (hheader.not_of_write ha12 hx), fun ha12 ha16 => ?_,
    fun ha16 hsens => ?_⟩
  · exact hbadMessage (hheader.write ha12) (hmessage.not_of_write_sum ha12 ha16 hx)
  · refine hbadMessage (hheader.write (by omega)) (hmessage.not_of_write_payload ha16 ha hx ?_)
    rw [State.respond_msgSum, State.mencWrites_msgSum]
    rcases hsens with hsens | hcrc
    · exact hsens
    · rw [hcrc]
      exact defaultMsgSumIsByteSensitive

end Sys2Proof.Machine
end

section
/-! PROOFS. Isolation: when the bytes a command reads have been written since reset, the name of the unspecified contents
does not enter its result (70_reset_and_hazards.md R120, R121), and each command writes only what the spec names
(10_state.md R10, R18, R19). -/

namespace Sys2Proof.Machine

/-! ## The name of the unspecified contents -/

section
variable (s : State) (n : Nat)

theorem State.readByte_withFill {s : State} {sp : Space} {a : Nat}
    (h : ((s.buffer sp).byte? a).isSome = true) : { s with fill := n }.readByte sp a = s.readByte sp a :=
  State.readByte_written (by cases sp <;> rfl) h

theorem State.memRead_withFill {s : State} {sp : Space} {a k : Nat} (h : Written s sp a k) :
    { s with fill := n }.memRead sp a k = s.memRead sp a k :=
  State.memRead_congr fun i hi => State.readByte_withFill n (h i hi)

theorem Written.sub {s : State} {sp : Space} {a k b m : Nat} (h : Written s sp a k) (hb : a ≤ b) (hm : b + m ≤ a + k) :
    Written s sp b m := by
  intro i hi
  have hi' := h (b + i - a) (by omega)
  rwa [show a + (b + i - a) = b + i by omega] at hi'

theorem State.memWrite_withFill (sp : Space) (a : Nat) (bs : List Byte) :
    { s with fill := n }.memWrite sp a bs = { s.memWrite sp a bs with fill := n } := by
  cases sp <;> rfl

theorem State.writeReg_withFill (r : HdrReg) (v : Word) :
    { s with fill := n }.writeReg r v = { s.writeReg r v with fill := n } := by
  cases r <;> rfl

theorem State.readReg_withFill (r : Reg) : { s with fill := n }.readReg r = s.readReg r := by
  cases r <;> rfl

/-- MENC reads PBUF[0..plen-1] and registers. -/
theorem State.mencWrites_withFill {plen : Half} (h : Written s .pbuf 0 plen.toNat) :
    { s with fill := n }.mencWrites plen = { s.mencWrites plen with fill := n } := by
  have hpayload : { s with fill := n }.mencPayload plen = s.mencPayload plen := by
    rw [State.mencPayload, State.mencPayload, State.memRead_withFill n h]
  have hheader : { s with fill := n }.mencHeader plen = s.mencHeader plen := rfl
  have hsum : { s with fill := n }.mencSum plen = s.mencSum plen := by
    rw [State.mencSum, State.mencSum, hpayload, hheader]
  have hframe : ∀ m, { s with fill := n }.mencFrame plen m = s.mencFrame plen m := fun m => by
    rw [State.mencFrame, State.mencFrame, hpayload, hheader]
  rw [State.mencWrites_eq, State.mencWrites_eq, hsum, hframe, hheader]
  rfl

variable {s} (h : Written s .wbuf 0 1016)
include h

theorem State.wireHeader_withFill : { s with fill := n }.wireHeader = s.wireHeader :=
  State.memRead_withFill n (h.sub (Nat.le_refl 0) (by decide))

theorem State.wirePayload_withFill : { s with fill := n }.wirePayload = s.wirePayload :=
  State.memRead_withFill n (h.sub (Nat.zero_le 16) (by decide))

theorem State.wireSum_withFill : { s with fill := n }.wireSum = s.wireSum := by
  have hbyte : ∀ a < 1016, { s with fill := n }.readByte .wbuf a = s.readByte .wbuf a := fun a ha => by
    have hwritten := h a ha
    rw [Nat.zero_add] at hwritten
    exact State.readByte_withFill n hwritten
  rw [State.wireSum, State.wireSum, hbyte 12 (by decide), hbyte 13 (by decide), hbyte 14 (by decide),
    hbyte 15 (by decide)]

theorem State.headerCheck_withFill : { s with fill := n }.headerCheck = s.headerCheck := by
  rw [State.headerCheck, State.headerCheck, State.wireHeader_withFill n h]

theorem State.messageCheck_withFill : { s with fill := n }.messageCheck = s.messageCheck := by
  rw [State.messageCheck, State.messageCheck, State.wireHeader_withFill n h, State.wirePayload_withFill n h,
    State.wireSum_withFill n h]

theorem State.mdecWrites_withFill : { s with fill := n }.mdecWrites = { s.mdecWrites with fill := n } := by
  rw [State.mdecWrites, State.mdecWrites, State.wireHeader_withFill n h, State.wirePayload_withFill n h,
    State.wireSum_withFill n h]
  rfl

end

/-- A command whose duty is met uses no unwritten byte. -/
theorem actionOf_withFill {i : Instr} {s : State} (hduty : CommandDuty i s) (n : Nat) :
    actionOf i { s with fill := n } = { actionOf i s with fill := n } := by
  cases i with
  | rdreg r =>
    rw [actionOf, State.readReg_withFill]
    rfl
  | wrreg r v =>
    rw [actionOf, State.writeReg_withFill]
    rfl
  | rdbuf sp addr =>
    have hwritten : ((s.buffer sp).byte? addr.toNat).isSome = true := hduty 0 Nat.one_pos
    rw [actionOf, State.readByte_withFill n hwritten]
    rfl
  | wrbuf sp addr x =>
    rw [actionOf, State.memWrite_withFill]
    rfl
  | hdec =>
    rw [actionOf, State.memRead_withFill n hduty]
    rfl
  | menc plen =>
    rw [actionOf, actionOf, State.mencWrites_withFill s n hduty]
    split <;> rfl
  | mdec =>
    rw [actionOf, actionOf, State.headerCheck_withFill n hduty, State.messageCheck_withFill n hduty,
      State.mdecWrites_withFill n hduty]
    split
    · rfl
    · split <;> rfl
  | hcsm | hvfy | henc | fset | fget | noflg => rfl

theorem State.process_withFill (s : State) (n : Nat) (isRead legal : Bool) {act : State → State}
    (hact : act { s with fill := n } = { act s with fill := n }) :
    { s with fill := n }.process isRead legal act = { s.process isRead legal act with fill := n } := by
  have hf : { s with fill := n }.fatal = s.fatal := rfl
  rw [State.process, State.process, hf, hact]
  split
  · rfl
  · split <;> rfl

/-- Settles O47: the processing order reads no buffer, and a dutiful action only written bytes. -/
theorem unspecifiedBytesDoNotEnterADutifulCommand : Obligations.UnspecifiedBytesDoNotEnterADutifulCommand := by
  intro i s n hduty
  refine ⟨_, exec_eq_process i s, ?_⟩
  rw [exec_eq_process, State.process_withFill s n _ _ (actionOf_withFill hduty n)]

/-! ## What each command writes -/

/-- The contents of the block besides STATUS: registers 0 to 6 and both buffers. -/
def SameContents (s t : State) : Prop := t.header = s.header ∧ t.mcsum = s.mcsum ∧ t.pbuf = s.pbuf ∧ t.wbuf = s.wbuf

/-- Every register and buffer that differs in `t` is one the spec lets this command write (10_state.md R10). -/
def WritesAllowed (i : Instr) (s t : State) : Prop :=
  (t.mcsum ≠ s.mcsum → (∃ p, i = .menc p) ∨ i = .mdec) ∧
  (t.seq ≠ s.seq → (∃ v, i = .wrreg .seq v) ∨ i = .hdec ∨ i = .mdec) ∧
  (t.ackn ≠ s.ackn → (∃ v, i = .wrreg .ackn v) ∨ i = .hdec ∨ i = .mdec) ∧
  (t.win ≠ s.win → (∃ v, i = .wrreg .win v) ∨ i = .hdec ∨ i = .mdec) ∧
  (t.flags ≠ s.flags → (∃ v, i = .wrreg .flags v) ∨ (∃ f v, i = .fset f v) ∨ i = .hdec ∨ i = .mdec) ∧
  (t.dlen ≠ s.dlen → (∃ v, i = .wrreg .dlen v) ∨ (∃ p, i = .menc p) ∨ i = .hdec ∨ i = .mdec) ∧
  (t.hcsum ≠ s.hcsum →
    (∃ v, i = .wrreg .hcsum v) ∨ i = .hcsm ∨ (∃ p, i = .menc p) ∨ i = .hdec ∨ i = .mdec) ∧
  (t.pbuf ≠ s.pbuf → (∃ a x, i = .wrbuf .pbuf a x) ∨ i = .mdec) ∧
  (t.wbuf ≠ s.wbuf → (∃ a x, i = .wrbuf .wbuf a x) ∨ i = .henc ∨ ∃ p, i = .menc p)

theorem SameContents.writesAllowed {i : Instr} {s t : State} (h : SameContents s t) : WritesAllowed i s t := by
  obtain ⟨hheader, hmcsum, hpbuf, hwbuf⟩ := h
  exact ⟨fun hne => absurd hmcsum hne, fun hne => absurd (congrArg Header.seq hheader) hne,
    fun hne => absurd (congrArg Header.ackn hheader) hne, fun hne => absurd (congrArg Header.win hheader) hne,
    fun hne => absurd (congrArg Header.flags hheader) hne, fun hne => absurd (congrArg Header.dlen hheader) hne,
    fun hne => absurd (congrArg Header.hcsum hheader) hne, fun hne => absurd hpbuf hne, fun hne => absurd hwbuf hne⟩

theorem State.answer_sameContents (s : State) (r : Response) : SameContents s (s.answer r) := ⟨rfl, rfl, rfl, rfl⟩

theorem State.raise_sameContents (s : State) (k : ErrorKind) : SameContents s (s.raise k) := ⟨rfl, rfl, rfl, rfl⟩

theorem writesAllowed_wrreg (r : HdrReg) (v : Word) (s : State) :
    WritesAllowed (.wrreg r v) s (actionOf (.wrreg r v) s) := by
  cases r <;> simp [WritesAllowed, actionOf, State.writeReg]

theorem writesAllowed_wrbuf (sp : Space) (addr : Half) (x : Byte) (s : State) :
    WritesAllowed (.wrbuf sp addr x) s (actionOf (.wrbuf sp addr x) s) := by
  cases sp <;> simp [WritesAllowed, actionOf]

theorem writesAllowed_menc (plen : Half) (s : State) : WritesAllowed (.menc plen) s (actionOf (.menc plen) s) := by
  rw [actionOf]
  split
  · exact (s.raise_sameContents _).writesAllowed
  · rw [State.mencWrites_eq]
    simp [WritesAllowed]

theorem writesAllowed_mdec (s : State) : WritesAllowed .mdec s (actionOf .mdec s) := by
  rw [actionOf]
  split
  · exact (s.raise_sameContents _).writesAllowed
  · split
    · exact (s.raise_sameContents _).writesAllowed
    · simp [WritesAllowed, State.mdecWrites]

theorem actionOf_writesAllowed (i : Instr) (s : State) : WritesAllowed i s (actionOf i s) := by
  cases i with
  | rdreg | rdbuf | hvfy | fget | noflg => exact (s.answer_sameContents _).writesAllowed
  | wrreg r v => exact writesAllowed_wrreg r v s
  | wrbuf sp addr x => exact writesAllowed_wrbuf sp addr x s
  | menc plen => exact writesAllowed_menc plen s
  | mdec => exact writesAllowed_mdec s
  | hcsm | henc | hdec | fset => simp [WritesAllowed, actionOf]

/-- Settles O48: a refused or illegal command writes no contents, and an action only its own. -/
theorem onlyTheNamedCommandsWrite : Obligations.OnlyTheNamedCommandsWrite := by
  intro i s t ht
  rw [exec_eq_process] at ht
  cases ht
  rcases State.process_cases s (isReadInstr i) i.wf (actionOf i) with ⟨-, -, h⟩ | ⟨-, -, h⟩ | ⟨-, -, h⟩
  · rw [h]
    exact (s.answer_sameContents _).writesAllowed
  · rw [h]
    exact (s.raise_sameContents _).writesAllowed
  · rw [h]
    exact actionOf_writesAllowed i s

end Sys2Proof.Machine
end
